-- ==== Sys2Proof/Word.lean ====
section
/-!
DEFINITION. The word type of the core and the width of its chaining-value buses.
A word is an unsigned 32-bit integer with bit `i` of weight 2^i (00_scope.md R6); the operators
⊕, ∧, ∨, ¬, >>, << and + of R7 are `^^^`, `&&&`, `|||`, `~~~`, `>>>`, `<<<` and `+` of `BitVec 32`.
-/

namespace Sys2Proof

/-- A word: 32 bits, unsigned (00_scope.md R6). -/
abbrev Word := BitVec 32

/-- The value on `cv_in` or `state_out`: eight words, 256 bits (00_scope.md R5 `CV_BUS_WIDTH`). -/
abbrev CvBus := BitVec 256

end Sys2Proof
end

