-- ==== Sys2Proof/Syntax.lean ====
section
/-!
DEFINITION. The operations of the core as syntax: one constructor of `Instr` per row of
spec/opcode_table.json; the encoded form of an operation as the values on its port group
(30_encoding.md R60); and a host drive, which is what the host puts on the ports before the control
state is added to the decode key.
-/

namespace Sys2Proof

/-- The control state of the RCE, `fsm[1:0]` (10_state.md R23). The fourth code has no name in the
spec: no rule reaches it from reset. -/
inductive Fsm where
  /-- `00`: not computing. -/
  | idle
  /-- `01`: one round is applied at each edge. -/
  | run
  /-- `10`: the 64 rounds have finished. -/
  | done
  /-- `11`: unreachable from reset. -/
  | unreachable
  deriving DecidableEq, Repr, Inhabited

/-- What the data inputs of the RCE carry at an edge (30_encoding.md R63). Every edge carries all
three; which of them an operation samples is its own rule. -/
structure EdgePorts where
  /-- `cv_in`, sampled by LOAD and LOADSTART. -/
  cv : CvBus
  /-- `k_in`, sampled by ROUND. -/
  k : Word
  /-- `w_in`, sampled by ROUND. -/
  w : Word
  deriving DecidableEq, Repr, Inhabited

/-- The operations: one constructor per row of spec/opcode_table.json (30_encoding.md R64, R65, R67). -/
inductive Instr where
  /-- MIX.BSIG0, `mix_op = 000` (40_mixing.md R83). -/
  | mixBsig0 (x y z : Word)
  /-- MIX.BSIG1, `mix_op = 001` (R84). -/
  | mixBsig1 (x y z : Word)
  /-- MIX.SSIG0, `mix_op = 010` (R85). -/
  | mixSsig0 (x y z : Word)
  /-- MIX.SSIG1, `mix_op = 011` (R86). -/
  | mixSsig1 (x y z : Word)
  /-- MIX.CH, `mix_op = 100` (R87). -/
  | mixCh (x y z : Word)
  /-- MIX.MAJ, `mix_op = 101` (R88). -/
  | mixMaj (x y z : Word)
  /-- MIX.RESERVED, `mix_op = 11x`; `low` is the free bit `mix_op[0]` (R89). -/
  | mixReserved (low : BitVec 1) (x y z : Word)
  /-- TBL.BSIG0, `tbl_sel = 00` (41_tables.md R101). -/
  | tblBsig0 (idx : BitVec 12)
  /-- TBL.BSIG1, `tbl_sel = 01` (R102). -/
  | tblBsig1 (idx : BitVec 12)
  /-- TBL.SSIG0, `tbl_sel = 10` (R103). -/
  | tblSsig0 (idx : BitVec 12)
  /-- TBL.SSIG1, `tbl_sel = 11` (R104). -/
  | tblSsig1 (idx : BitVec 12)
  /-- RESET, key `1xxxx` (70_reset_and_hazards.md R160). -/
  | reset (p : EdgePorts)
  /-- NOP, key `0x000` (42_round.md R113). -/
  | nop (p : EdgePorts)
  /-- LOAD, key `0x001` (R114). -/
  | load (p : EdgePorts)
  /-- START, key `0x010` (R115). -/
  | start (p : EdgePorts)
  /-- LOADSTART, key `0x011` (R116). -/
  | loadstart (p : EdgePorts)
  /-- ROUND, key `001xx`; `cmd` is the ignored command `key[1:0]`, which only decides `err` (R117). -/
  | round (cmd : BitVec 2) (p : EdgePorts)
  deriving DecidableEq, Repr

/-- An operation as its port group carries it: the three forms of 30_encoding.md R60. -/
inductive PortWord where
  /-- `MIXOP`: the 3-bit select and the three operand ports (R61). -/
  | mixop (op : BitVec 3) (x y z : Word)
  /-- `TBLSEL`: the 2-bit select and the 12-bit index (R62). -/
  | tblsel (sel : BitVec 2) (idx : BitVec 12)
  /-- `RCEKEY`: the 5-bit key `rst fsm[1:0] cmd[1:0]` and the data inputs sampled with it (R63). -/
  | rcekey (key : BitVec 5) (p : EdgePorts)
  deriving DecidableEq, Repr

/-- One drive by the host: new values on the MIX port, new values on the ROM port, or one clock edge
with the RCE inputs it samples (30_encoding.md R61 to R63). -/
inductive Drive where
  /-- The host drives the MIX port. -/
  | mix (op : BitVec 3) (x y z : Word)
  /-- The host drives the ROM port. -/
  | tbl (sel : BitVec 2) (idx : BitVec 12)
  /-- A rising edge of `clk` that samples `rst`, `cmd` and the data inputs. -/
  | edge (rst : BitVec 1) (cmd : BitVec 2) (p : EdgePorts)
  deriving DecidableEq, Repr, Inhabited

end Sys2Proof
end

