-- ==== Sys2Proof/Config.lean ====
section
/-!
DEFINITION. What an implementation fixes (00_scope.md R5) and the free values: values the spec leaves
open after an operation that goes on. The free values are opaque constants, so no proof can learn
one; they are applied to the fields `stream` and `draws` of State. Nothing relates the values of two
streams, nor two values of one stream (log 20).
-/

namespace Sys2Proof

/-- The parameter of one core instance that 92_eei_decisions.md leaves open (D19). -/
structure Config where
  /-- `HAS_TABLES`: the table ROM and its port exist. -/
  hasTables : Bool
  deriving DecidableEq, Repr

/-- The default parameter values of 00_scope.md R5. -/
def Config.default : Config := { hasTables := true }

/-- `WORD_WIDTH` (00_scope.md R5). -/
def Config.wordWidth : Nat := 32
/-- `NUM_REGS` (R5). -/
def Config.numRegs : Nat := 8
/-- `NUM_ROUNDS` (R5). -/
def Config.numRounds : Nat := 64
/-- `CTR_WIDTH` (R5). -/
def Config.ctrWidth : Nat := 6
/-- `NUM_TABLES` (R5). -/
def Config.numTables : Nat := 4
/-- `TABLE_ENTRIES` (R5). -/
def Config.tableEntries : Nat := 4096
/-- `TABLE_INDEX_WIDTH` (R5). -/
def Config.tableIndexWidth : Nat := 12
/-- `CV_BUS_WIDTH` (R5). -/
def Config.cvBusWidth : Nat := 256
/-- `ROTATION_AMOUNTS` (R5, 40_mixing.md R82). -/
def Config.rotationAmounts : List Nat := [2, 6, 7, 11, 13, 17, 18, 19, 22, 25]
/-- `SHIFT_AMOUNTS` (R5, R82). -/
def Config.shiftAmounts : List Nat := [3, 10]

/-- A free word: what a register of a..h holds after a RESET edge, which the spec leaves unspecified
(10_state.md R32, 70_reset_and_hazards.md R160). DESIGN CHOICE, log 2; safe: nothing constrains it. -/
opaque Config.freeWord (stream draw : Nat) : Word

/-- A free host drive: what the host does next where the model has been given no drive for it
(93_implementation_defined.md U9). DESIGN CHOICE, log 6; safe: nothing constrains it. -/
opaque Config.freeDrive (stream draw : Nat) : Drive

end Sys2Proof
end

