-- ==== Sys2Proof/Decode.lean ====
section
/-!
DEFINITION. The decoder of the three port forms, total and rejecting by name, and the encoder, both
written from the same tables: 30_encoding.md R64 (`mix_op`), R65 (`tbl_sel`) and R67 (the RCE key).
-/

namespace Sys2Proof

/-- Why a port value is no operation. -/
inductive DecodeError where
  /-- The key `0 11 xx`: "unreachable state; a model refuses it" (30_encoding.md R67, R69). -/
  | unreachableFsm
  deriving DecidableEq, Repr

/-- One row of an encoding table: a select matches when its bits under `mask` are `pattern`. -/
structure Row (n : Nat) where
  mask : BitVec n
  pattern : BitVec n
  deriving DecidableEq, Repr

/-- The select `v` is one of the row's. -/
def Row.covers {n : Nat} (r : Row n) (v : BitVec n) : Bool := v &&& r.mask == r.pattern

/-- The two bits of `fsm` (10_state.md R23). -/
def Fsm.bits : Fsm → BitVec 2
  | .idle => 0b00#2
  | .run => 0b01#2
  | .done => 0b10#2
  | .unreachable => 0b11#2

/-- The control state two bits name (10_state.md R23). -/
def Fsm.ofBits (b : BitVec 2) : Fsm :=
  if b = 0b00#2 then .idle
  else if b = 0b01#2 then .run
  else if b = 0b10#2 then .done
  else .unreachable

/-- The decode key `rst ‖ fsm[1:0] ‖ cmd[1:0]` (30_encoding.md R60, R67). -/
def rceKey (rst : BitVec 1) (fsm : Fsm) (cmd : BitVec 2) : BitVec 5 := rst ++ fsm.bits ++ cmd

/-- `key[4]`. -/
def keyRst (key : BitVec 5) : BitVec 1 := key.extractLsb' 4 1
/-- `key[3:2]`. -/
def keyFsm (key : BitVec 5) : Fsm := Fsm.ofBits (key.extractLsb' 2 2)
/-- `key[1:0]`. -/
def keyCmd (key : BitVec 5) : BitVec 2 := key.extractLsb' 0 2

/-- `cmd = 00` (30_encoding.md R66). -/
def cmdNop : BitVec 2 := 0b00#2
/-- `cmd = 01` (R66). -/
def cmdLoad : BitVec 2 := 0b01#2
/-- `cmd = 10` (R66). -/
def cmdStart : BitVec 2 := 0b10#2
/-- `cmd = 11` (R66). -/
def cmdLoadstart : BitVec 2 := 0b11#2

/-! The `mix_op` table (30_encoding.md R64). -/

def rowMixBsig0 : Row 3 := { mask := 0b111#3, pattern := 0b000#3 }
def rowMixBsig1 : Row 3 := { mask := 0b111#3, pattern := 0b001#3 }
def rowMixSsig0 : Row 3 := { mask := 0b111#3, pattern := 0b010#3 }
def rowMixSsig1 : Row 3 := { mask := 0b111#3, pattern := 0b011#3 }
def rowMixCh : Row 3 := { mask := 0b111#3, pattern := 0b100#3 }
def rowMixMaj : Row 3 := { mask := 0b111#3, pattern := 0b101#3 }
def rowMixReserved : Row 3 := { mask := 0b110#3, pattern := 0b110#3 }

/-! The `tbl_sel` table (30_encoding.md R65). -/

def rowTblBsig0 : Row 2 := { mask := 0b11#2, pattern := 0b00#2 }
def rowTblBsig1 : Row 2 := { mask := 0b11#2, pattern := 0b01#2 }
def rowTblSsig0 : Row 2 := { mask := 0b11#2, pattern := 0b10#2 }
def rowTblSsig1 : Row 2 := { mask := 0b11#2, pattern := 0b11#2 }

/-! The key table (30_encoding.md R67), in its first-match order. -/

def rowReset : Row 5 := { mask := 0b10000#5, pattern := 0b10000#5 }
def rowNop : Row 5 := { mask := 0b10111#5, pattern := 0b00000#5 }
def rowLoad : Row 5 := { mask := 0b10111#5, pattern := 0b00001#5 }
def rowStart : Row 5 := { mask := 0b10111#5, pattern := 0b00010#5 }
def rowLoadstart : Row 5 := { mask := 0b10111#5, pattern := 0b00011#5 }
def rowRound : Row 5 := { mask := 0b11100#5, pattern := 0b00100#5 }

/-- The MIX port's operation (30_encoding.md R64): every select has one. -/
def decodeMix (op : BitVec 3) (x y z : Word) : Instr :=
  if rowMixBsig0.covers op then .mixBsig0 x y z
  else if rowMixBsig1.covers op then .mixBsig1 x y z
  else if rowMixSsig0.covers op then .mixSsig0 x y z
  else if rowMixSsig1.covers op then .mixSsig1 x y z
  else if rowMixCh.covers op then .mixCh x y z
  else if rowMixMaj.covers op then .mixMaj x y z
  else .mixReserved (op.extractLsb' 0 1) x y z

/-- The ROM port's operation (30_encoding.md R65): every select has one. -/
def decodeTbl (sel : BitVec 2) (idx : BitVec 12) : Instr :=
  if rowTblBsig0.covers sel then .tblBsig0 idx
  else if rowTblBsig1.covers sel then .tblBsig1 idx
  else if rowTblSsig0.covers sel then .tblSsig0 idx
  else .tblSsig1 idx

/-- The RCE's operation at an edge: "The first row that matches decides what happens" (30_encoding.md R67). -/
def decodeKey (key : BitVec 5) (p : EdgePorts) : Except DecodeError Instr :=
  if rowReset.covers key then .ok (.reset p)
  else if rowNop.covers key then .ok (.nop p)
  else if rowLoad.covers key then .ok (.load p)
  else if rowStart.covers key then .ok (.start p)
  else if rowLoadstart.covers key then .ok (.loadstart p)
  else if rowRound.covers key then .ok (.round (keyCmd key) p)
  else .error .unreachableFsm

/-- The decoder: the operation a port group's values select. -/
def decode : PortWord → Except DecodeError Instr
  | .mixop op x y z => .ok (decodeMix op x y z)
  | .tblsel sel idx => .ok (decodeTbl sel idx)
  | .rcekey key p => decodeKey key p

/-- The encoder: the values on the operation's port group, the key's don't-care bits at 0. -/
def encode : Instr → PortWord
  | .mixBsig0 x y z => .mixop rowMixBsig0.pattern x y z
  | .mixBsig1 x y z => .mixop rowMixBsig1.pattern x y z
  | .mixSsig0 x y z => .mixop rowMixSsig0.pattern x y z
  | .mixSsig1 x y z => .mixop rowMixSsig1.pattern x y z
  | .mixCh x y z => .mixop rowMixCh.pattern x y z
  | .mixMaj x y z => .mixop rowMixMaj.pattern x y z
  | .mixReserved low x y z => .mixop (rowMixReserved.pattern ||| low.setWidth 3) x y z
  | .tblBsig0 idx => .tblsel rowTblBsig0.pattern idx
  | .tblBsig1 idx => .tblsel rowTblBsig1.pattern idx
  | .tblSsig0 idx => .tblsel rowTblSsig0.pattern idx
  | .tblSsig1 idx => .tblsel rowTblSsig1.pattern idx
  | .reset p => .rcekey rowReset.pattern p
  | .nop p => .rcekey rowNop.pattern p
  | .load p => .rcekey rowLoad.pattern p
  | .start p => .rcekey rowStart.pattern p
  | .loadstart p => .rcekey rowLoadstart.pattern p
  | .round cmd p => .rcekey (rowRound.pattern ||| cmd.setWidth 5) p

/-- All data inputs of the RCE at 0: "An input that no operation samples can be left at 0 without loss"
(30_encoding.md R71). -/
def EdgePorts.zero : EdgePorts := { cv := 0, k := 0, w := 0 }

/-- The port value that a word numbered as spec/opcode_table.json numbers it stands for, operands 0.
The table gives a row only its select or key, 3, 2 or 5 bits, and does not say which port group it is
on. At those exact widths the width names the form; at any other width the first form of the table
with that select is taken. DESIGN CHOICE, log 13. -/
def tableWord (nbits w : Nat) : Option PortWord :=
  if nbits = 2 then
    if w < 4 then some (.tblsel (BitVec.ofNat 2 w) 0) else none
  else if nbits = 5 then
    if w < 32 then some (.rcekey (BitVec.ofNat 5 w) EdgePorts.zero) else none
  else if w < 8 then some (.mixop (BitVec.ofNat 3 w) 0 0 0)
  else if w < 32 ∧ nbits ≠ 3 then some (.rcekey (BitVec.ofNat 5 w) EdgePorts.zero)
  else none

/-- The instruction the decoder reads from a word of the opcode table. -/
def decodeTableWord (nbits w : Nat) : Option Instr :=
  match tableWord nbits w with
  | some pw =>
    match decode pw with
    | .ok i => some i
    | .error _ => none
  | none => none

end Sys2Proof
end

