-- ==== Sys2Proof/Machine/State.lean ====
section
/-!
DEFINITION. The state of one core, as plain data, and the state after reset. INVENTORY.md "State"
lists every field with its rule and its reset value.
-/

namespace Sys2Proof.Machine

/-- The register file, eight words in index order a = 0 … h = 7 (10_state.md R20). -/
structure RoundState where
  a : Word
  b : Word
  c : Word
  d : Word
  e : Word
  f : Word
  g : Word
  h : Word
  deriving DecidableEq, Repr

/-- The name of a register of the file (10_state.md R20). -/
inductive Reg where
  | a | b | c | d | e | f | g | h
  deriving DecidableEq, Repr

/-- The wires of the MIX port: what the host drives and what the MFU answers (30_encoding.md R61). -/
structure MixPort where
  op : BitVec 3
  x : Word
  y : Word
  z : Word
  /-- `mix_r`. -/
  r : Word
  /-- `mix_err`. -/
  err : Bool
  deriving DecidableEq, Repr

/-- The wires of the ROM port: what the host drives and what the ROM answers (30_encoding.md R62). -/
structure TblPort where
  sel : BitVec 2
  idx : BitVec 12
  /-- `tbl_q`. -/
  q : Word
  deriving DecidableEq, Repr

/-- The machine state, that of the hardware of one core: its registers, the wires of its two combinational ports and
its parameter. No K
or w word and no chaining value to come stands in it (10_state.md R31). -/
@[ext]
structure Hardware where
  /-- a … h (10_state.md R20). -/
  regs : RoundState
  /-- a … h hold a value a rule fixes: some LOAD or LOADSTART came after the last reset. It carries the
  "no value" of 10_state.md R33; no operation of the hardware reads it (log 4). -/
  regsDefined : Bool
  /-- The round counter (R22). -/
  ctr : BitVec 6
  /-- The control state (R23). -/
  fsm : Fsm
  /-- The sticky flag (R24). -/
  err : Bool
  /-- The MIX port's wires (log 8). -/
  mix : MixPort
  /-- The ROM port's wires, of meaning only when the instance has the ROM (log 8). -/
  tbl : TblPort
  /-- The instance's parameter; no step changes it (log 9). -/
  cfg : Config
  deriving DecidableEq, Repr

/-- The hardware and, beside it, what is no state of the machine: the host's coming drives and the free values. The
machine's own step is `Hardware.step`, which takes a drive's port values as a parameter; the fixed interface of the
closed step has no argument for an input, so the coming drives wait here (10_state.md R31, log 5). -/
@[ext]
structure State extends Hardware where
  /-- The host's drives yet to come, oldest first (log 5). -/
  host : List Drive
  /-- Which stream of free values this copy of the core draws from; no step changes it (log 20). -/
  stream : Nat
  /-- How many free values have been drawn (log 2, log 6, log 18). -/
  draws : Nat
  deriving DecidableEq, Repr

/-- Why a checked run or a checked observation stops. `step` raises none of these: "The hardware raises
no synchronous exception and has no trap" (60_exceptions.md R140). -/
inductive Fault where
  /-- A ROUND reads a register that holds no value (60_exceptions.md R142). Raised by `checkedStep` only;
  safe, as the hardware goes on. -/
  | uninitRead (reg : Reg)
  /-- `state_out` is looked at while a..h hold no value (R142). Raised by `observeStateOut` only; safe. -/
  | uninitObserve
  deriving DecidableEq, Repr

/-- Why a step has no meaning. -/
inductive Refusal where
  /-- An operation of the opcode table without a meaning yet. Raised by no arm of `exec`; safe. -/
  | notModelled (mnemonic : String)
  /-- An edge with `rst = 0` while `fsm = 11` (30_encoding.md R67, R69; 93_implementation_defined.md U3).
  Raised by `step` and by the RCE operations; safe. -/
  | unreachableFsm
  /-- TBL.* with `HAS_TABLES = 0` (41_tables.md R107, U6). Raised by the TBL operations; safe. -/
  | noTables
  /-- A run starts from a state that reset did not leave (10_state.md R34, U2). Raised by `runFrom`; safe. -/
  | preReset
  deriving DecidableEq, Repr

/-- The register file with every register 0. -/
def RoundState.zero : RoundState :=
  { a := 0, b := 0, c := 0, d := 0, e := 0, f := 0, g := 0, h := 0 }

/-- The machine right after reset (10_state.md R32, R34). `fsm`, `ctr` and `err` are the spec's. The spec
calls a … h unspecified; 0 is the model's DESIGN CHOICE (log 1, unsafe), with `regsDefined` false beside
it. The ports carry 0, DESIGN CHOICE (log 8). -/
def State.reset : State :=
  { regs := RoundState.zero
    regsDefined := false
    ctr := 0
    fsm := .idle
    err := false
    mix := { op := 0, x := 0, y := 0, z := 0, r := 0, err := false }
    tbl := { sel := 0, idx := 0, q := 0 }
    cfg := Config.default
    host := []
    stream := 0
    draws := 0 }

end Sys2Proof.Machine
end

