-- ==== Sys2Proof/Machine/Functions.lean ====
section
/-!
DEFINITION. The functions of the core: rotation and shift (40_mixing.md R80, R81), the mixing functions
and helpers (R83 to R88), the MFU as one function of its inputs (R64, R89, R91), the tables
(41_tables.md R100) and the round function (42_round.md R110).
-/

namespace Sys2Proof.Machine

/-- `rotr(x, n)`, for `0 < n < 32` (40_mixing.md R80). -/
def rotr (x : Word) (n : Nat) : Word := (x >>> n) ||| (x <<< (32 - n))

/-- `shr(x, n)` (R81). -/
def shr (x : Word) (n : Nat) : Word := x >>> n

/-- Σ0 (R83). -/
def bsig0 (x : Word) : Word := rotr x 2 ^^^ rotr x 13 ^^^ rotr x 22

/-- Σ1 (R84). -/
def bsig1 (x : Word) : Word := rotr x 6 ^^^ rotr x 11 ^^^ rotr x 25

/-- σ0 (R85). -/
def ssig0 (x : Word) : Word := rotr x 7 ^^^ rotr x 18 ^^^ shr x 3

/-- σ1 (R86). -/
def ssig1 (x : Word) : Word := rotr x 17 ^^^ rotr x 19 ^^^ shr x 10

/-- Ch, bitwise choose (R87). -/
def ch (e f g : Word) : Word := (e &&& f) ^^^ (~~~e &&& g)

/-- Maj, bitwise majority (R88). -/
def maj (a b c : Word) : Word := (a &&& b) ^^^ (a &&& c) ^^^ (b &&& c)

/-- The MFU's result as one function of its inputs (40_mixing.md R91, 30_encoding.md R64). -/
def mfuResult (op : BitVec 3) (x y z : Word) : Word :=
  if op = 0b000#3 then bsig0 x
  else if op = 0b001#3 then bsig1 x
  else if op = 0b010#3 then ssig0 x
  else if op = 0b011#3 then ssig1 x
  else if op = 0b100#3 then ch x y z
  else if op = 0b101#3 then maj x y z
  else 0

/-- `mix_err` as a function of the select: 1 exactly when `mix_op[2:1] = 11` (40_mixing.md R90). -/
def mfuErr (op : BitVec 3) : Bool := op.extractLsb' 1 2 == 0b11#2

/-- `zext_32` of a table index (00_scope.md R7, 30_encoding.md R68). -/
def zext32 (idx : BitVec 12) : Word := idx.setWidth 32

/-- The ROM: the word at a 14-bit word address `tbl_sel ‖ tbl_idx` (20_memory.md R40, R48;
41_tables.md R100). -/
def romRead (addr : BitVec 14) : Word :=
  let sel := addr.extractLsb' 12 2
  let i := zext32 (addr.extractLsb' 0 12)
  if sel = 0b00#2 then bsig0 i
  else if sel = 0b01#2 then bsig1 i
  else if sel = 0b10#2 then ssig0 i
  else ssig1 i

/-- T1 of a round (42_round.md R110). -/
def roundT1 (s : RoundState) (k w : Word) : Word := s.h + bsig1 s.e + ch s.e s.f s.g + k + w

/-- T2 of a round (R110). -/
def roundT2 (s : RoundState) : Word := bsig0 s.a + maj s.a s.b s.c

/-- The round function, every position written from the state before the round (R110, R111). -/
def roundFn (s : RoundState) (k w : Word) : RoundState :=
  { a := roundT1 s k w + roundT2 s
    b := s.a
    c := s.b
    d := s.c
    e := s.d + roundT1 s k w
    f := s.e
    g := s.f
    h := s.g }

/-- Rounds in order, one (K, w) pair each: F of 42_round.md R120. -/
def rounds (s : RoundState) : List (Word × Word) → RoundState
  | [] => s
  | kw :: rest => rounds (roundFn s kw.1 kw.2) rest

end Sys2Proof.Machine
end

