-- ==== Sys2Proof/Machine/Operands.lean ====
section
/-!
DEFINITION. How operands are formed (30_encoding.md R68) and how the eight words lie on the 256-bit buses
(20_memory.md R42).
-/

namespace Sys2Proof.Machine

/-- The register of a name. -/
def RoundState.get (s : RoundState) : Reg → Word
  | .a => s.a
  | .b => s.b
  | .c => s.c
  | .d => s.d
  | .e => s.e
  | .f => s.f
  | .g => s.g
  | .h => s.h

/-- The index of a register, a = 0 … h = 7 (10_state.md R20). -/
def Reg.index : Reg → Nat
  | .a => 0
  | .b => 1
  | .c => 2
  | .d => 3
  | .e => 4
  | .f => 5
  | .g => 6
  | .h => 7

/-- `unpack(v)`: register `j` is bits `[255 − 32j : 224 − 32j]` (20_memory.md R42). -/
def unpack (v : CvBus) : RoundState :=
  { a := v.extractLsb' 224 32
    b := v.extractLsb' 192 32
    c := v.extractLsb' 160 32
    d := v.extractLsb' 128 32
    e := v.extractLsb' 96 32
    f := v.extractLsb' 64 32
    g := v.extractLsb' 32 32
    h := v.extractLsb' 0 32 }

/-- `a ‖ b ‖ … ‖ h`, a in the most significant position (10_state.md R25, 20_memory.md R42). -/
def pack (s : RoundState) : CvBus := s.a ++ s.b ++ s.c ++ s.d ++ s.e ++ s.f ++ s.g ++ s.h

/-- The 14-bit word address `tbl_sel ‖ tbl_idx` (20_memory.md R40). -/
def romAddr (sel : BitVec 2) (idx : BitVec 12) : BitVec 14 := sel ++ idx

/-- Eight free words of a stream from the counter value `n` on: what a RESET edge leaves in a..h (log 2). The
stream is the copy's own, so that no two copies of the core are made to agree (log 20). -/
def freeRegs (stream n : Nat) : RoundState :=
  { a := Config.freeWord stream n
    b := Config.freeWord stream (n + 1)
    c := Config.freeWord stream (n + 2)
    d := Config.freeWord stream (n + 3)
    e := Config.freeWord stream (n + 4)
    f := Config.freeWord stream (n + 5)
    g := Config.freeWord stream (n + 6)
    h := Config.freeWord stream (n + 7) }

end Sys2Proof.Machine
end

