-- ==== Sys2Proof/Machine/Flags.lean ====
section
/-!
DEFINITION. The status of the core: how a ROUND edge computes `err`, `ctr` and `fsm` (42_round.md R117)
and the outputs, which depend on the state of the hardware alone (10_state.md R25).
-/

namespace Sys2Proof.Machine

/-- `err` after a RUN edge: set by any command other than NOP, else kept (10_state.md R24, 42_round.md R117). -/
def errAfterRound (err : Bool) (cmd : BitVec 2) : Bool := if cmd = cmdNop then err else true

/-- `ctr` after a RUN edge: modulo 64 (R117, D12). -/
def ctrAfterRound (ctr : BitVec 6) : BitVec 6 := if ctr = 63#6 then 0 else ctr + 1

/-- `fsm` after a RUN edge: DONE after round 63 (R117). -/
def fsmAfterRound (ctr : BitVec 6) : Fsm := if ctr = 63#6 then .done else .run

/-- `busy` (10_state.md R25). -/
def Hardware.busy (s : Hardware) : Bool := s.fsm == .run

/-- `done` (R25). -/
def Hardware.done (s : Hardware) : Bool := s.fsm == .done

/-- The `err` output (R25). -/
def Hardware.errOut (s : Hardware) : Bool := s.err

/-- `round_idx` (R25). -/
def Hardware.roundIdx (s : Hardware) : BitVec 6 := s.ctr

/-- `state_out`: the bits on the bus in every cycle (R25, D29). While a..h hold no value a claim about it
goes through `observeStateOut`. -/
def Hardware.stateOut (s : Hardware) : CvBus := pack s.regs

/-- `mix_r` (30_encoding.md R61). -/
def Hardware.mixR (s : Hardware) : Word := s.mix.r

/-- `mix_err` (R61). -/
def Hardware.mixErr (s : Hardware) : Bool := s.mix.err

/-- `tbl_q`, which an instance without the ROM does not have (41_tables.md R107). -/
def Hardware.tblQ (s : Hardware) : Option Word := if s.cfg.hasTables then some s.tbl.q else none

end Sys2Proof.Machine
end

