-- ==== Sys2Proof/Machine/Ops.lean ====
section
/-!
DEFINITION. The named operations that the meanings share. They act on the hardware's own state and take the port
values as parameters (10_state.md R31); `State.onHardware` lets a `State` run one. There is no operation that takes
an exception or returns from one: "There is no trap entry, trap return, vector table, saved state, nesting or
delegation" (60_exceptions.md R145).
-/

namespace Sys2Proof.Machine

/-- The host drives the MIX port and the MFU answers on its output wires (40_mixing.md R91). -/
def Hardware.driveMix (m : Hardware) (op : BitVec 3) (x y z r : Word) (err : Bool) : Hardware :=
  { m with mix := { op := op, x := x, y := y, z := z, r := r, err := err } }

/-- The host drives the ROM port and the ROM answers with the word at that address (41_tables.md R108,
20_memory.md R40). -/
def Hardware.driveTbl (m : Hardware) (sel : BitVec 2) (idx : BitVec 12) : Hardware :=
  { m with tbl := { sel := sel, idx := idx, q := romRead (romAddr sel idx) } }

/-- a..h from `cv_in`, all eight at one edge (10_state.md R21, 42_round.md R114). -/
def Hardware.loadRegs (m : Hardware) (cv : CvBus) : Hardware :=
  { m with regs := unpack cv, regsDefined := true }

/-- `ctr` to 0 and the control state to `f` (R114, R115, R116). -/
def Hardware.enter (m : Hardware) (f : Fsm) : Hardware := { m with ctr := 0, fsm := f }

/-- A RUN edge: round `ctr` of the sampled words, of which nothing is stored (42_round.md R117, R118). -/
def Hardware.applyRound (m : Hardware) (cmd : BitVec 2) (p : EdgePorts) : Hardware :=
  { m with
    regs := roundFn m.regs p.k p.w
    ctr := ctrAfterRound m.ctr
    fsm := fsmAfterRound m.ctr
    err := errAfterRound m.err cmd }

/-- An edge with `rst = 1` (70_reset_and_hazards.md R160): a..h become the unspecified words `u`. -/
def Hardware.resetTo (m : Hardware) (u : RoundState) : Hardware :=
  { m with regs := u, regsDefined := false, ctr := 0, fsm := .idle, err := false }

/-- What a command does outside RUN (30_encoding.md R66, middle column). -/
def Hardware.command (m : Hardware) (cmd : BitVec 2) (p : EdgePorts) : Hardware :=
  if cmd = cmdNop then m
  else if cmd = cmdLoad then (m.loadRegs p.cv).enter .idle
  else if cmd = cmdStart then m.enter .run
  else (m.loadRegs p.cv).enter .run

/-- An edge with `rst = 0` that carries the command `cmd`: outside RUN the command has the effect `ready`
gives it, in RUN the round proceeds, and `fsm = 11` has no meaning (42_round.md R112, 30_encoding.md R66,
60_exceptions.md R144; log 11). -/
def Hardware.edge (m : Hardware) (cmd : BitVec 2) (p : EdgePorts) (ready : Hardware → Hardware) :
    Host.Outcome Hardware Fault Refusal :=
  match m.fsm with
  | .idle => .next (ready m)
  | .done => .next (ready m)
  | .run => .next (m.applyRound cmd p)
  | .unreachable => .refused .unreachableFsm

/-- A read of the ROM port, which an instance without the ROM does not have (41_tables.md R107). -/
def Hardware.lookup (m : Hardware) (sel : BitVec 2) (idx : BitVec 12) : Host.Outcome Hardware Fault Refusal :=
  if m.cfg.hasTables then .next (m.driveTbl sel idx) else .refused .noTables

/-- The step of 42_round.md R112, `step(s, rst, cmd, cv_in, k_in, w_in)`: the sampled values are parameters, and so
are the unspecified words `u` that an edge with `rst = 1` leaves in a..h. -/
def Hardware.rceStep (m : Hardware) (rst : BitVec 1) (cmd : BitVec 2) (cv : CvBus) (k w : Word) (u : RoundState) :
    Host.Outcome Hardware Fault Refusal :=
  let p : EdgePorts := { cv := cv, k := k, w := w }
  if rst = 1#1 then .next (m.resetTo u) else m.edge cmd p (fun t => t.command cmd p)

/-- The step of the hardware, the port values of one drive being its parameter (10_state.md R31): an edge is the
RCE's step, a MIX or ROM drive is answered at once (40_mixing.md R91, 41_tables.md R108). -/
def Hardware.step (m : Hardware) (d : Drive) (u : RoundState) : Host.Outcome Hardware Fault Refusal :=
  match d with
  | .mix op x y z => .next (m.driveMix op x y z (mfuResult op x y z) (mfuErr op))
  | .tbl sel idx => m.lookup sel idx
  | .edge rst cmd p => m.rceStep rst cmd p.cv p.k p.w u

/-- The hardware under a sequence of port values, K and w among them, each with the unspecified words of its edge:
all of them parameters (10_state.md R31). It stops at the first fault or refusal. -/
def Hardware.steps : List (Drive × RoundState) → Hardware → Host.Outcome Hardware Fault Refusal
  | [], m => .next m
  | du :: rest, m =>
    match m.step du.1 du.2 with
    | .next m' => Hardware.steps rest m'
    | .fault r => .fault r
    | .refused r => .refused r

/-- An operation of the hardware, run by a `State`: what stands outside the hardware stays. -/
def State.onHardware (s : State) (f : Hardware → Host.Outcome Hardware Fault Refusal) :
    Host.Outcome State Fault Refusal :=
  match f s.toHardware with
  | .next m => .next { s with toHardware := m }
  | .fault r => .fault r
  | .refused r => .refused r

/-- An edge with `rst = 1`, the unspecified words of a..h being free values (log 2). -/
def State.resetEdge (s : State) : State :=
  { s with toHardware := s.resetTo (freeRegs s.stream s.draws), draws := s.draws + 8 }

end Sys2Proof.Machine
end

