-- ==== Sys2Proof/Machine/Mix.lean ====
section
/-!
DEFINITION. The meanings of the MIX operations (40_mixing.md R83 to R89). None has an exception and none
touches the RCE or the ROM port (R51, R91).
-/

namespace Sys2Proof.Machine

/-- MIX.BSIG0 (R83). -/
def execMixBsig0 (x y z : Word) (s : State) : Host.Outcome State Fault Refusal :=
  .next { s with toHardware := s.driveMix 0b000#3 x y z (bsig0 x) false }

/-- MIX.BSIG1 (R84). -/
def execMixBsig1 (x y z : Word) (s : State) : Host.Outcome State Fault Refusal :=
  .next { s with toHardware := s.driveMix 0b001#3 x y z (bsig1 x) false }

/-- MIX.SSIG0 (R85). -/
def execMixSsig0 (x y z : Word) (s : State) : Host.Outcome State Fault Refusal :=
  .next { s with toHardware := s.driveMix 0b010#3 x y z (ssig0 x) false }

/-- MIX.SSIG1 (R86). -/
def execMixSsig1 (x y z : Word) (s : State) : Host.Outcome State Fault Refusal :=
  .next { s with toHardware := s.driveMix 0b011#3 x y z (ssig1 x) false }

/-- MIX.CH: e, f, g are x, y, z (R87, 30_encoding.md R68). -/
def execMixCh (x y z : Word) (s : State) : Host.Outcome State Fault Refusal :=
  .next { s with toHardware := s.driveMix 0b100#3 x y z (ch x y z) false }

/-- MIX.MAJ: a, b, c are x, y, z (R88, 30_encoding.md R68). -/
def execMixMaj (x y z : Word) (s : State) : Host.Outcome State Fault Refusal :=
  .next { s with toHardware := s.driveMix 0b101#3 x y z (maj x y z) false }

/-- Reserved MIX selects: result 0, `mix_err` 1, no trap (R89; log 12). -/
def execMixReserved (low : BitVec 1) (x y z : Word) (s : State) : Host.Outcome State Fault Refusal :=
  .next { s with toHardware := s.driveMix (0b11#2 ++ low) x y z 0 true }

end Sys2Proof.Machine
end

