-- ==== Sys2Proof/Machine/Rce.lean ====
section
/-!
DEFINITION. The meanings of the RCE operations (42_round.md R113 to R117, 70_reset_and_hazards.md R160).
Each is the edge with that command in whatever control state the edge finds (42_round.md R112), so that
a command in RUN is ignored as 30_encoding.md R66's last column says (log 11).
-/

namespace Sys2Proof.Machine

/-- RESET, whatever the control state (70_reset_and_hazards.md R160). -/
def execReset (_p : EdgePorts) (s : State) : Host.Outcome State Fault Refusal :=
  .next s.resetEdge

/-- NOP: hold (R113). -/
def execNop (p : EdgePorts) (s : State) : Host.Outcome State Fault Refusal :=
  s.onHardware (fun m => m.edge cmdNop p (fun t => t))

/-- LOAD: a..h from `cv_in`, IDLE (R114). -/
def execLoad (p : EdgePorts) (s : State) : Host.Outcome State Fault Refusal :=
  s.onHardware (fun m => m.edge cmdLoad p (fun t => (t.loadRegs p.cv).enter .idle))

/-- START: RUN on the registers as they are; no round at this edge (R115). -/
def execStart (p : EdgePorts) (s : State) : Host.Outcome State Fault Refusal :=
  s.onHardware (fun m => m.edge cmdStart p (fun t => t.enter .run))

/-- LOADSTART: a..h from `cv_in`, RUN (R116). -/
def execLoadstart (p : EdgePorts) (s : State) : Host.Outcome State Fault Refusal :=
  s.onHardware (fun m => m.edge cmdLoadstart p (fun t => (t.loadRegs p.cv).enter .run))

/-- ROUND: apply round `ctr`; a command other than NOP is ignored and sets `err` (R117). An edge that finds
the engine outside RUN applies the command instead (R112); the decoder gives ROUND in RUN only. -/
def execRound (cmd : BitVec 2) (p : EdgePorts) (s : State) : Host.Outcome State Fault Refusal :=
  s.onHardware (fun m => m.edge cmd p (fun t => t.command cmd p))

end Sys2Proof.Machine
end

