-- ==== Sys2Proof/Machine/Tbl.lean ====
section
/-!
DEFINITION. The meanings of the TBL operations (41_tables.md R101 to R104, R107).
-/

namespace Sys2Proof.Machine

/-- TBL.BSIG0 (R101). -/
def execTblBsig0 (idx : BitVec 12) (s : State) : Host.Outcome State Fault Refusal :=
  s.onHardware (fun m => m.lookup 0b00#2 idx)

/-- TBL.BSIG1 (R102). -/
def execTblBsig1 (idx : BitVec 12) (s : State) : Host.Outcome State Fault Refusal :=
  s.onHardware (fun m => m.lookup 0b01#2 idx)

/-- TBL.SSIG0 (R103). -/
def execTblSsig0 (idx : BitVec 12) (s : State) : Host.Outcome State Fault Refusal :=
  s.onHardware (fun m => m.lookup 0b10#2 idx)

/-- TBL.SSIG1 (R104). -/
def execTblSsig1 (idx : BitVec 12) (s : State) : Host.Outcome State Fault Refusal :=
  s.onHardware (fun m => m.lookup 0b11#2 idx)

end Sys2Proof.Machine
end

