-- ==== Sys2Proof/Machine/Dispatch.lean ====
section
/-!
DEFINITION. The dispatch: one arm per operation, one call of its meaning each.
-/

namespace Sys2Proof.Machine

def exec (i : Instr) (s : State) : Host.Outcome State Fault Refusal :=
  match i with
  | .mixBsig0 x y z => Sys2Proof.Machine.execMixBsig0 x y z s
  | .mixBsig1 x y z => Sys2Proof.Machine.execMixBsig1 x y z s
  | .mixSsig0 x y z => Sys2Proof.Machine.execMixSsig0 x y z s
  | .mixSsig1 x y z => Sys2Proof.Machine.execMixSsig1 x y z s
  | .mixCh x y z => Sys2Proof.Machine.execMixCh x y z s
  | .mixMaj x y z => Sys2Proof.Machine.execMixMaj x y z s
  | .mixReserved low x y z => Sys2Proof.Machine.execMixReserved low x y z s
  | .tblBsig0 idx => Sys2Proof.Machine.execTblBsig0 idx s
  | .tblBsig1 idx => Sys2Proof.Machine.execTblBsig1 idx s
  | .tblSsig0 idx => Sys2Proof.Machine.execTblSsig0 idx s
  | .tblSsig1 idx => Sys2Proof.Machine.execTblSsig1 idx s
  | .reset p => Sys2Proof.Machine.execReset p s
  | .nop p => Sys2Proof.Machine.execNop p s
  | .load p => Sys2Proof.Machine.execLoad p s
  | .start p => Sys2Proof.Machine.execStart p s
  | .loadstart p => Sys2Proof.Machine.execLoadstart p s
  | .round cmd p => Sys2Proof.Machine.execRound cmd p s

end Sys2Proof.Machine
end

