-- ==== Sys2Proof/Machine/Fetch.lean ====
section
/-!
DEFINITION. How the machine comes to its next operation. It fetches nothing (10_state.md R26): the host
drives its ports. A step takes the host's next drive, adds the control state to an edge's decode key
(30_encoding.md R67), decodes and runs.
-/

namespace Sys2Proof.Machine

/-- The next drive and the state without it. With no drive left in the list, the host's drive is a free
value (log 6). -/
def State.nextDrive (s : State) : Drive × State :=
  match s.host with
  | d :: rest => (d, { s with host := rest })
  | [] => (Config.freeDrive s.stream s.draws, { s with draws := s.draws + 1 })

/-- The values on the port group that a drive sets; an edge's key holds `fsm` (30_encoding.md R67). -/
def Hardware.portWord (s : Hardware) : Drive → PortWord
  | .mix op x y z => .mixop op x y z
  | .tbl sel idx => .tblsel sel idx
  | .edge rst cmd p => .rcekey (rceKey rst s.fsm cmd) p

/-- The refusal a rejected port value ends in. -/
def refusalOf : DecodeError → Refusal
  | .unreachableFsm => .unreachableFsm

/-- A drive run by its encoding: decode the port values in the state they meet and run the operation. What it does
to the hardware is `Hardware.step` of the drive; it neither reads nor writes `s.host` (10_state.md R31). -/
def runDrive (d : Drive) (s : State) : Host.Outcome State Fault Refusal :=
  match decode (s.portWord d) with
  | .ok i => exec i s
  | .error e => .refused (refusalOf e)

/-- `runDrive` over a sequence of port values, K, w and chaining values among them, which are its parameter
(10_state.md R31). It stops at the first fault or refusal. -/
def runDrives : List Drive → State → Host.Outcome State Fault Refusal
  | [], s => .next s
  | d :: ds, s =>
    match runDrive d s with
    | .next t => runDrives ds t
    | .fault r => .fault r
    | .refused r => .refused r

/-- `s` with a port value placed so that the next step samples exactly it: its drive first in the host's
list and, for an RCE key, the control state that the key names. -/
def State.placePortWord (s : State) : PortWord → State
  | .mixop op x y z => { s with host := .mix op x y z :: s.host }
  | .tblsel sel idx => { s with host := .tbl sel idx :: s.host }
  | .rcekey key p => { s with fsm := keyFsm key, host := .edge (keyRst key) (keyCmd key) p :: s.host }

/-- `placePortWord` for a word of the opcode table; a word that is none leaves `s` as it is (log 13). -/
def State.placeTableWord (s : State) (nbits w : Nat) : State :=
  match tableWord nbits w with
  | some pw => s.placePortWord pw
  | none => s

end Sys2Proof.Machine
end

