-- ==== Sys2Proof/Machine/Step.lean ====
section
/-!
DEFINITION. One step: one drive by the host, which is one clock edge, one MIX evaluation or one ROM read.
-/

namespace Sys2Proof.Machine

/-- One step of the machine (42_round.md R112 for an edge; 40_mixing.md R91 and 41_tables.md R108 for the
combinational ports). -/
def step (s : State) : Host.Outcome State Fault Refusal :=
  runDrive s.nextDrive.1 s.nextDrive.2

/-- `s` with a word of the opcode table placed where the next step takes its operation (log 13). -/
def State.withFetchWord (s : State) (nbits w : Nat) : State := s.placeTableWord nbits w

end Sys2Proof.Machine
end

