-- ==== Sys2Proof/Machine/Checked.lean ====
section
/-!
DEFINITION. The model faults of 60_exceptions.md R142, beside `step`. The hardware runs on unspecified
registers (70_reset_and_hazards.md R169) and so does `step`; the checked forms below stop where R142 does,
so that a claim can be made in either form (log 3).
-/

namespace Sys2Proof.Machine

/-- `k` steps of the machine, stopping at the first fault or refusal. -/
def run (k : Nat) (s : State) : Host.Outcome State Fault Refusal := Host.Core.run Sys2Proof.core k s

/-- The drive makes a ROUND: an edge with `rst = 0` in RUN (42_round.md R112). -/
def State.isRound (s : State) : Drive → Bool
  | .edge rst _ _ => rst == 0#1 && s.fsm == .run
  | .mix _ _ _ _ => false
  | .tbl _ _ => false

/-- One step, except that a ROUND whose registers hold no value faults `UninitRead` (R142). All eight
registers hold none; the fault names the first of them (log 17). -/
def checkedStep (s : State) : Host.Outcome State Fault Refusal :=
  if s.isRound s.nextDrive.1 && !s.regsDefined then .fault (.uninitRead .a) else step s

/-- What a claim may say of `state_out`: its bits, or `UninitObserve` while a..h hold no value (R142,
10_state.md R33). -/
def observeStateOut (s : State) : Except Fault CvBus :=
  if s.regsDefined then .ok s.stateOut else .error .uninitObserve

/-- The control part of `s` is what a reset edge leaves (10_state.md R32): a run may start here, whatever
bits a..h hold (log 16). -/
def State.isPostReset (s : State) : Bool :=
  s.fsm == .idle && s.ctr == 0 && !s.err && !s.regsDefined

/-- `k` checked steps, stopping at the first fault or refusal: "A model keeps every fault it raises" (R142). -/
def checkedRun : Nat → State → Host.Outcome State Fault Refusal
  | 0, s => .next s
  | k + 1, s =>
    match checkedStep s with
    | .next t => checkedRun k t
    | .fault r => .fault r
    | .refused r => .refused r

/-- A checked run from a start state: one that reset did not leave is refused `PreReset` (10_state.md R34,
R142). -/
def runFrom (k : Nat) (s : State) : Host.Outcome State Fault Refusal :=
  if s.isPostReset then checkedRun k s else .refused .preReset

end Sys2Proof.Machine
end

