-- ==== Sys2Proof/Machine/Instances.lean ====
section
/-!
DEFINITION. A system of `N_INST` copies of the core (00_scope.md R5, 60_exceptions.md R149). Each copy has
its own MFU, ROM and RCE, and copies share no state (log 14).
-/

namespace Sys2Proof.Machine

/-- `n` copies of the core (`N_INST = n`). -/
abbrev System (n : Nat) := Vector State n

/-- Every copy as reset leaves it, each with a stream of free values of its own: 60_exceptions.md R149 relates
neither the unspecified words nor the hosts of two copies, and neither does the model. DESIGN CHOICE, log 20. -/
def System.reset (n : Nat) : System n := Vector.ofFn (fun j => { State.reset with stream := j.val })

/-- One drive reaches copy `j`: that copy steps and the others stay. -/
def System.stepAt {n : Nat} (sys : System n) (j : Fin n) : Host.Outcome (System n) Fault Refusal :=
  match step (sys.get j) with
  | .next t => .next (sys.set j t)
  | .fault r => .fault r
  | .refused r => .refused r

end Sys2Proof.Machine
end

