-- ==== Sys2Proof/Machine/Trace.lean ====
section
/-!
DEFINITION. The lines of the trace notation (30_encoding.md R71) as drives, an absent input at 0, and the
pseudo-operation COMPRESS (R72).
-/

namespace Sys2Proof.Machine

/-- `RST`. -/
def Trace.rst : Drive := .edge 1#1 cmdNop EdgePorts.zero

/-- `NOP k=<word> w=<word>`. -/
def Trace.nop (k w : Word) : Drive := .edge 0#1 cmdNop { cv := 0, k := k, w := w }

/-- `LOAD cv=<words>`. -/
def Trace.load (cv : CvBus) : Drive := .edge 0#1 cmdLoad { cv := cv, k := 0, w := 0 }

/-- `START`. -/
def Trace.start : Drive := .edge 0#1 cmdStart EdgePorts.zero

/-- `LOADSTART cv=<words>`. -/
def Trace.loadstart (cv : CvBus) : Drive := .edge 0#1 cmdLoadstart { cv := cv, k := 0, w := 0 }

/-- The K and w words that 64 edges sample, in round order. -/
def Trace.schedule (K w : Vector Word 64) : List (Word × Word) := K.toList.zip w.toList

/-- `COMPRESS cv, K, w`: LOADSTART and then one NOP edge per round (R72). -/
def Trace.compress (cv : CvBus) (K w : Vector Word 64) : List Drive :=
  Trace.loadstart cv :: (Trace.schedule K w).map (fun kw => Trace.nop kw.1 kw.2)

end Sys2Proof.Machine
end

