-- ==== Sys2Proof/Safety.lean ====
section
/-!
DEFINITION. The terms claims use: the invariant of the reachable states, what the RCE is apart from the
other ports, and a host that keeps its command rule.
-/

namespace Sys2Proof.Safety

open Sys2Proof.Machine

/-- The MIX port's outputs are the MFU's function of its inputs (40_mixing.md R91). -/
abbrev MixPortAgrees (m : MixPort) : Prop :=
  m.r = mfuResult m.op m.x m.y m.z ∧ m.err = mfuErr m.op

/-- The ROM port's output is the word at its address (41_tables.md R108). -/
abbrev TblPortAgrees (t : TblPort) : Prop := t.q = romRead (romAddr t.sel t.idx)

/-- The invariant of every state reached from reset: a legal control state (10_state.md R23), `ctr` 0
outside RUN (42_round.md R123), and both combinational ports agreeing with their inputs. -/
abbrev StateInv (s : State) : Prop :=
  s.fsm ≠ .unreachable ∧ (s.fsm ≠ .run → s.ctr = 0) ∧ MixPortAgrees s.mix ∧ TblPortAgrees s.tbl

/-- Two states hold the same RCE, and the same host and free values before them: everything but the MIX and ROM
ports (20_memory.md R51). -/
abbrev SameRce (s t : State) : Prop :=
  s.regs = t.regs ∧ s.regsDefined = t.regsDefined ∧ s.ctr = t.ctr ∧ s.fsm = t.fsm ∧ s.err = t.err ∧
    s.host = t.host ∧ s.stream = t.stream ∧ s.draws = t.draws ∧ s.cfg = t.cfg

/-- Two states have the same control: `fsm`, `ctr` and `err`, whatever words they hold (42_round.md R119). -/
abbrev SameControl (s t : State) : Prop := s.fsm = t.fsm ∧ s.ctr = t.ctr ∧ s.err = t.err

/-- The drive is a command edge, that is, `rst = 0` and a `cmd` other than NOP. -/
def isCommand : Drive → Bool
  | .edge rst cmd _ => rst == 0#1 && cmd != cmdNop
  | .mix _ _ _ _ => false
  | .tbl _ _ => false

/-- The drive is an edge with `rst = 1`. -/
def isReset : Drive → Bool
  | .edge rst _ _ => rst == 1#1
  | .mix _ _ _ _ => false
  | .tbl _ _ => false

/-- The host keeps 70_reset_and_hazards.md R164 in this state: no command while `busy`. -/
def keepsCommandRule (s : State) (d : Drive) : Bool := !(isCommand d && s.busy)

end Sys2Proof.Safety
end

