-- ==== Sys2Proof/WellFormed.lean ====
section
/-!
DEFINITION. Which operations an instance of the core has. Operand widths hold by type; what is left
to check is that a TBL operation belongs to an instance with a table ROM (41_tables.md R107).
-/

namespace Sys2Proof

/-- The check: "TBL.* are not operations of the hardware" when `HAS_TABLES = 0` (41_tables.md R107). -/
def Instr.wf (cfg : Config) : Instr → Bool
  | .mixBsig0 _ _ _ => true
  | .mixBsig1 _ _ _ => true
  | .mixSsig0 _ _ _ => true
  | .mixSsig1 _ _ _ => true
  | .mixCh _ _ _ => true
  | .mixMaj _ _ _ => true
  | .mixReserved _ _ _ _ => true
  | .tblBsig0 _ => cfg.hasTables
  | .tblBsig1 _ => cfg.hasTables
  | .tblSsig0 _ => cfg.hasTables
  | .tblSsig1 _ => cfg.hasTables
  | .reset _ => true
  | .nop _ => true
  | .load _ => true
  | .start _ => true
  | .loadstart _ => true
  | .round _ _ => true

end Sys2Proof
end

