-- ==== Sys2Proof/Certificates/Slice0/Obligations.lean ====
section
/-!
DEFINITION. The statements for the provers: what the rules of spec/ say the operations and the machine do.
A result statement gives the whole next state, so it is also the operation's frame and its completion.
-/

open Sys2Proof Sys2Proof.Machine Sys2Proof.Safety

/-! ## Encoding -/

/-- Decoding what the encoder gives for an operation gives the operation back, every operand at every value. -/
def Obligations.DecodeOfEncodeIsTheOperation : Prop :=
  ∀ i : Instr, decode (encode i) = .ok i

/-- Encoding a decoded port value gives the value back; a key's don't-care bits (R67) are all that may differ:
`fsm` and `cmd` under `rst`, and IDLE for DONE in the command rows. -/
def Obligations.EncodeOfDecodeKeepsTheFixedBits : Prop :=
  (∀ op x y z i, decode (.mixop op x y z) = .ok i → encode i = .mixop op x y z) ∧
  (∀ sel idx i, decode (.tblsel sel idx) = .ok i → encode i = .tblsel sel idx) ∧
  (∀ key p i, decode (.rcekey key p) = .ok i →
    ∃ key', encode i = .rcekey key' p ∧ keyRst key' = keyRst key ∧
      (keyRst key = 0#1 → keyCmd key' = keyCmd key ∧ (keyFsm key' = .run ↔ keyFsm key = .run)))

/-- 30_encoding.md R67: the key is `rst fsm cmd`, and each row of the key table decodes to its operation; the
remaining keys, `0 11 xx`, are refused by name; a command does the same in IDLE and in DONE. -/
def Obligations.RceKeyDecodesByTheRowTable : Prop :=
  (∀ (s : State) (rst : BitVec 1) (cmd : BitVec 2) (p : EdgePorts), ∃ key,
    s.portWord (.edge rst cmd p) = .rcekey key p ∧
    key.extractLsb' 4 1 = rst ∧ key.extractLsb' 0 2 = cmd ∧
    (s.fsm = .idle → key.extractLsb' 2 2 = 0b00#2) ∧ (s.fsm = .run → key.extractLsb' 2 2 = 0b01#2) ∧
    (s.fsm = .done → key.extractLsb' 2 2 = 0b10#2) ∧ (s.fsm = .unreachable → key.extractLsb' 2 2 = 0b11#2)) ∧
  (∀ (key : BitVec 5) (p : EdgePorts),
    (key &&& 0b10000#5 = 0b10000#5 → decode (.rcekey key p) = .ok (.reset p)) ∧
    (key &&& 0b10111#5 = 0b00000#5 → decode (.rcekey key p) = .ok (.nop p)) ∧
    (key &&& 0b10111#5 = 0b00001#5 → decode (.rcekey key p) = .ok (.load p)) ∧
    (key &&& 0b10111#5 = 0b00010#5 → decode (.rcekey key p) = .ok (.start p)) ∧
    (key &&& 0b10111#5 = 0b00011#5 → decode (.rcekey key p) = .ok (.loadstart p)) ∧
    (key &&& 0b11100#5 = 0b00100#5 → decode (.rcekey key p) = .ok (.round (key.extractLsb' 0 2) p)) ∧
    (key &&& 0b11100#5 = 0b01100#5 → decode (.rcekey key p) = .error .unreachableFsm)) ∧
  (∀ (s : State) (cmd : BitVec 2) (p : EdgePorts), cmd ≠ 0b00#2 →
    runDrive (.edge 0#1 cmd p) { s with fsm := .idle } = runDrive (.edge 0#1 cmd p) { s with fsm := .done })

/-- 30_encoding.md R64: the eight selects of the MIX port and what each answers. -/
def Obligations.MixSelectTable : Prop :=
  ∀ (x y z : Word) (s : State),
    decode (.mixop 0b000#3 x y z) = .ok (.mixBsig0 x y z) ∧ decode (.mixop 0b001#3 x y z) = .ok (.mixBsig1 x y z) ∧
    decode (.mixop 0b010#3 x y z) = .ok (.mixSsig0 x y z) ∧ decode (.mixop 0b011#3 x y z) = .ok (.mixSsig1 x y z) ∧
    decode (.mixop 0b100#3 x y z) = .ok (.mixCh x y z) ∧ decode (.mixop 0b101#3 x y z) = .ok (.mixMaj x y z) ∧
    decode (.mixop 0b110#3 x y z) = .ok (.mixReserved 0#1 x y z) ∧
    decode (.mixop 0b111#3 x y z) = .ok (.mixReserved 1#1 x y z) ∧
    (∃ t, exec (.mixBsig0 x y z) s = .next t ∧ t.mixR = bsig0 x ∧ t.mixErr = false) ∧
    (∃ t, exec (.mixBsig1 x y z) s = .next t ∧ t.mixR = bsig1 x ∧ t.mixErr = false) ∧
    (∃ t, exec (.mixSsig0 x y z) s = .next t ∧ t.mixR = ssig0 x ∧ t.mixErr = false) ∧
    (∃ t, exec (.mixSsig1 x y z) s = .next t ∧ t.mixR = ssig1 x ∧ t.mixErr = false) ∧
    (∃ t, exec (.mixCh x y z) s = .next t ∧ t.mixR = ch x y z ∧ t.mixErr = false) ∧
    (∃ t, exec (.mixMaj x y z) s = .next t ∧ t.mixR = maj x y z ∧ t.mixErr = false) ∧
    (∀ low, ∃ t, exec (.mixReserved low x y z) s = .next t ∧ t.mixR = 0 ∧ t.mixErr = true)

/-- 30_encoding.md R65: the four selects of the ROM port, with the code `mix_op[1:0]` has for the same
function: a read with `sel` gives the word the MIX port gives with `mix_op = 0 ‖ sel`. -/
def Obligations.TblSelectUsesTheMixCode : Prop :=
  (∀ idx : BitVec 12,
    decode (.tblsel 0b00#2 idx) = .ok (.tblBsig0 idx) ∧ decode (.tblsel 0b01#2 idx) = .ok (.tblBsig1 idx) ∧
    decode (.tblsel 0b10#2 idx) = .ok (.tblSsig0 idx) ∧ decode (.tblsel 0b11#2 idx) = .ok (.tblSsig1 idx)) ∧
  (∀ (sel : BitVec 2) (idx : BitVec 12) (y z : Word) (s : State), s.cfg.hasTables = true →
    ∃ t u, runDrive (.tbl sel idx) s = .next t ∧ runDrive (.mix (0#1 ++ sel) (idx.setWidth 32) y z) s = .next u ∧
      t.tblQ = some u.mixR)

/-- A few words written out from 30_encoding.md R64, R65 and R67 decode to their operations. -/
def Obligations.WrittenOutWordsDecode : Prop :=
  decode (.mixop 0b011#3 0x00000018#32 0 0) = .ok (.mixSsig1 0x00000018#32 0 0) ∧
  decode (.mixop 0b111#3 1 2 3) = .ok (.mixReserved 1#1 1 2 3) ∧
  decode (.tblsel 0b10#2 0xabc#12) = .ok (.tblSsig0 0xabc#12) ∧
  (∀ p, decode (.rcekey 0b10110#5 p) = .ok (.reset p)) ∧
  (∀ p, decode (.rcekey 0b01001#5 p) = .ok (.load p)) ∧
  (∀ p, decode (.rcekey 0b00110#5 p) = .ok (.round 0b10#2 p)) ∧
  (∀ p, decode (.rcekey 0b01101#5 p) = .error .unreachableFsm)

/-! ## Functions -/

/-- 40_mixing.md R80: `rotr` is the two shifts joined, and moves bit `(i + n) mod 32` to bit `i`; every amount
of the hardware meets its precondition. -/
def Obligations.RotrMovesEveryBit : Prop :=
  (∀ (x : Word) (n : Nat), 0 < n → n < 32 →
    rotr x n = (x >>> n) ||| (x <<< (32 - n)) ∧
    ∀ i, i < 32 → (rotr x n).getLsbD i = x.getLsbD ((i + n) % 32)) ∧
  (∀ n ∈ Config.rotationAmounts, 0 < n ∧ n < 32)

/-- 40_mixing.md R81: `shr` moves bit `i + n` to bit `i` and fills the top `n` bits with 0. -/
def Obligations.ShrFillsWithZero : Prop :=
  ∀ (x : Word) (n i : Nat), i < 32 →
    (shr x n).getLsbD i = if i + n ≤ 31 then x.getLsbD (i + n) else false

/-- 40_mixing.md R92: the four laws, for all words. -/
def Obligations.MixingFunctionLaws : Prop :=
  (∀ x y : Word, bsig0 (x ^^^ y) = bsig0 x ^^^ bsig0 y ∧ bsig1 (x ^^^ y) = bsig1 x ^^^ bsig1 y ∧
    ssig0 (x ^^^ y) = ssig0 x ^^^ ssig0 y ∧ ssig1 (x ^^^ y) = ssig1 x ^^^ ssig1 y) ∧
  (bsig0 0 = 0 ∧ bsig1 0 = 0 ∧ ssig0 0 = 0 ∧ ssig1 0 = 0) ∧
  (∀ (x : Word) (n : Nat), 0 < n → n < 32 → (fun v => rotr v n)^[32 / Nat.gcd 32 n] x = x) ∧
  (∀ (x : Word) (m n : Nat), 0 < m → m < 32 → 0 < n → n < 32 →
    rotr (rotr x m) n = if (m + n) % 32 = 0 then x else rotr x ((m + n) % 32)) ∧
  (bsig0 0xffffffff#32 = 0xffffffff#32 ∧ bsig1 0xffffffff#32 = 0xffffffff#32 ∧
    bsig0 0xaaaaaaaa#32 = 0x55555555#32 ∧ bsig0 0x55555555#32 = 0xaaaaaaaa#32 ∧
    bsig1 0xaaaaaaaa#32 = 0xaaaaaaaa#32 ∧ bsig1 0x55555555#32 = 0x55555555#32)

/-! ## MIX operations -/

/-- 40_mixing.md R83, whole: encoding, result and `mix_err` with everything else unchanged, corner cases,
linearity, example. -/
def Obligations.MixBsig0FollowsItsRule : Prop :=
  (∀ x y z, decode (.mixop 0b000#3 x y z) = .ok (.mixBsig0 x y z)) ∧
  (∀ x y z s, exec (.mixBsig0 x y z) s = .next { s with mix := { op := 0b000#3, x := x, y := y, z := z, r := bsig0 x, err := false } }) ∧
  (∀ x, bsig0 x = rotr x 2 ^^^ rotr x 13 ^^^ rotr x 22) ∧
  bsig0 0 = 0 ∧ bsig0 0xffffffff#32 = 0xffffffff#32 ∧ (∀ x y, bsig0 (x ^^^ y) = bsig0 x ^^^ bsig0 y) ∧
  bsig0 0x00000001#32 = 0x40080400#32

/-- 40_mixing.md R84, whole. -/
def Obligations.MixBsig1FollowsItsRule : Prop :=
  (∀ x y z, decode (.mixop 0b001#3 x y z) = .ok (.mixBsig1 x y z)) ∧
  (∀ x y z s, exec (.mixBsig1 x y z) s = .next { s with mix := { op := 0b001#3, x := x, y := y, z := z, r := bsig1 x, err := false } }) ∧
  (∀ x, bsig1 x = rotr x 6 ^^^ rotr x 11 ^^^ rotr x 25) ∧
  bsig1 0 = 0 ∧ bsig1 0xffffffff#32 = 0xffffffff#32 ∧ bsig1 0x00000001#32 = 0x04200080#32

/-- 40_mixing.md R85, whole. -/
def Obligations.MixSsig0FollowsItsRule : Prop :=
  (∀ x y z, decode (.mixop 0b010#3 x y z) = .ok (.mixSsig0 x y z)) ∧
  (∀ x y z s, exec (.mixSsig0 x y z) s = .next { s with mix := { op := 0b010#3, x := x, y := y, z := z, r := ssig0 x, err := false } }) ∧
  (∀ x, ssig0 x = rotr x 7 ^^^ rotr x 18 ^^^ (x >>> 3)) ∧
  ssig0 0 = 0 ∧ ssig0 0xffffffff#32 = 0x1fffffff#32 ∧ ssig0 0x00000001#32 = 0x02004000#32

/-- 40_mixing.md R86, whole. -/
def Obligations.MixSsig1FollowsItsRule : Prop :=
  (∀ x y z, decode (.mixop 0b011#3 x y z) = .ok (.mixSsig1 x y z)) ∧
  (∀ x y z s, exec (.mixSsig1 x y z) s = .next { s with mix := { op := 0b011#3, x := x, y := y, z := z, r := ssig1 x, err := false } }) ∧
  (∀ x, ssig1 x = rotr x 17 ^^^ rotr x 19 ^^^ (x >>> 10)) ∧
  ssig1 0 = 0 ∧ ssig1 0xffffffff#32 = 0x003fffff#32 ∧ ssig1 0x00000001#32 = 0x0000a000#32

/-- 40_mixing.md R87, whole: with the bit reading (where `e` is 1 take `f`, else `g`) and the corner cases. -/
def Obligations.MixChFollowsItsRule : Prop :=
  (∀ x y z, decode (.mixop 0b100#3 x y z) = .ok (.mixCh x y z)) ∧
  (∀ x y z s, exec (.mixCh x y z) s = .next { s with mix := { op := 0b100#3, x := x, y := y, z := z, r := ch x y z, err := false } }) ∧
  (∀ e f g, ch e f g = (e &&& f) ^^^ (~~~e &&& g) ∧ ch e f g = (e &&& f) ||| (~~~e &&& g)) ∧
  (∀ e f g i, i < 32 → (ch e f g).getLsbD i = if e.getLsbD i then f.getLsbD i else g.getLsbD i) ∧
  (∀ (e f g : Word) i, ¬ ((e &&& f).getLsbD i ∧ (~~~e &&& g).getLsbD i)) ∧
  (∀ f g, ch 0xffffffff#32 f g = f ∧ ch 0 f g = g) ∧
  (∀ x z, ch x x z = x ||| z) ∧ (∀ x y, ch x y x = x &&& y) ∧
  ch 0xf0f0f0f0#32 0xaaaaaaaa#32 0x55555555#32 = 0xa5a5a5a5#32

/-- 40_mixing.md R88, whole: with the majority reading of each bit, symmetry and the corner cases. -/
def Obligations.MixMajFollowsItsRule : Prop :=
  (∀ x y z, decode (.mixop 0b101#3 x y z) = .ok (.mixMaj x y z)) ∧
  (∀ x y z s, exec (.mixMaj x y z) s = .next { s with mix := { op := 0b101#3, x := x, y := y, z := z, r := maj x y z, err := false } }) ∧
  (∀ a b c, maj a b c = (a &&& b) ^^^ (a &&& c) ^^^ (b &&& c)) ∧
  (∀ a b c i, (maj a b c).getLsbD i =
    decide (2 ≤ (a.getLsbD i).toNat + (b.getLsbD i).toNat + (c.getLsbD i).toNat)) ∧
  (∀ a b c, maj a b c = maj b a c ∧ maj a b c = maj a c b) ∧
  (∀ x z, maj x x z = x) ∧
  maj 0x6a09e667#32 0xbb67ae85#32 0x3c6ef372#32 = 0x3a6fe667#32

/-- 40_mixing.md R89, whole: both reserved selects answer 0 with `mix_err = 1` and do not trap; `mix_err` is
not sticky but follows `mix_op`: after a reserved select it is 0 at any defined select, and 1 at a reserved one. -/
def Obligations.MixReservedFollowsItsRule : Prop :=
  (∀ x y z, decode (.mixop 0b110#3 x y z) = .ok (.mixReserved 0#1 x y z) ∧
    decode (.mixop 0b111#3 x y z) = .ok (.mixReserved 1#1 x y z)) ∧
  (∀ low x y z s, exec (.mixReserved low x y z) s =
    .next { s with mix := { op := 0b11#2 ++ low, x := x, y := y, z := z, r := 0x00000000#32, err := true } }) ∧
  (∀ s, ∃ t, runDrive (.mix 0b110#3 0x12345678#32 0 0) s = .next t ∧ t.mixR = 0 ∧ t.mixErr = true) ∧
  (∀ low x y z s t op x' y' z', exec (.mixReserved low x y z) s = .next t →
    ∃ u, runDrive (.mix op x' y' z') t = .next u ∧ (u.mixErr = true ↔ op.extractLsb' 1 2 = 0b11#2))

/-- 40_mixing.md R90 (and the purity of R91): a MIX drive completes in every state, leaves everything but the
MIX port, and answers a function of its inputs, `mix_err` being 1 exactly for `mix_op[2:1] = 11`. -/
def Obligations.MixPortIsAFunctionOfItsInputs : Prop :=
  ∀ (op : BitVec 3) (x y z : Word) (s : State),
    runDrive (.mix op x y z) s =
      .next { s with mix := { op := op, x := x, y := y, z := z, r := mfuResult op x y z,
                              err := decide (op.extractLsb' 1 2 = 0b11#2) } }

/-! ## TBL operations -/

/-- 41_tables.md R101, whole. -/
def Obligations.TblBsig0FollowsItsRule : Prop :=
  (∀ idx, decode (.tblsel 0b00#2 idx) = .ok (.tblBsig0 idx)) ∧
  (∀ idx s, s.cfg.hasTables = true →
    exec (.tblBsig0 idx) s = .next { s with tbl := { sel := 0b00#2, idx := idx, q := bsig0 (idx.setWidth 32) } }) ∧
  (∀ idx : BitVec 12, romRead (0b00#2 ++ idx) = bsig0 (idx.setWidth 32)) ∧
  romRead (0b00#2 ++ 0x000#12) = 0x00000000#32 ∧ romRead (0b00#2 ++ 0xfff#12) = 0xbfc7ffff#32 ∧
  romRead (0b00#2 ++ 0x001#12) = 0x40080400#32 ∧ bsig0 1 = 0x40080400#32

/-- 41_tables.md R102, whole. -/
def Obligations.TblBsig1FollowsItsRule : Prop :=
  (∀ idx, decode (.tblsel 0b01#2 idx) = .ok (.tblBsig1 idx)) ∧
  (∀ idx s, s.cfg.hasTables = true →
    exec (.tblBsig1 idx) s = .next { s with tbl := { sel := 0b01#2, idx := idx, q := bsig1 (idx.setWidth 32) } }) ∧
  romRead (0b01#2 ++ 0x000#12) = 0x00000000#32 ∧ romRead (0b01#2 ++ 0xfff#12) = 0x03e7ffbe#32 ∧
  romRead (0b01#2 ++ 0x001#12) = 0x04200080#32

/-- 41_tables.md R103, whole. -/
def Obligations.TblSsig0FollowsItsRule : Prop :=
  (∀ idx, decode (.tblsel 0b10#2 idx) = .ok (.tblSsig0 idx)) ∧
  (∀ idx s, s.cfg.hasTables = true →
    exec (.tblSsig0 idx) s = .next { s with tbl := { sel := 0b10#2, idx := idx, q := ssig0 (idx.setWidth 32) } }) ∧
  romRead (0b10#2 ++ 0x000#12) = 0x00000000#32 ∧ romRead (0b10#2 ++ 0xfff#12) = 0xfdffc1e0#32 ∧
  romRead (0b10#2 ++ 0x001#12) = 0x02004000#32

/-- 41_tables.md R104, whole. -/
def Obligations.TblSsig1FollowsItsRule : Prop :=
  (∀ idx, decode (.tblsel 0b11#2 idx) = .ok (.tblSsig1 idx)) ∧
  (∀ idx s, s.cfg.hasTables = true →
    exec (.tblSsig1 idx) s = .next { s with tbl := { sel := 0b11#2, idx := idx, q := ssig1 (idx.setWidth 32) } }) ∧
  romRead (0b11#2 ++ 0x000#12) = 0x00000000#32 ∧ romRead (0b11#2 ++ 0xfff#12) = 0x06006003#32 ∧
  romRead (0b11#2 ++ 0x001#12) = 0x0000a000#32

/-- 20_memory.md R48: the address map, a table for each quarter of the 14-bit word addresses, and the address
`tbl_sel ‖ tbl_idx` of a read. -/
def Obligations.RomAddressMap : Prop :=
  (∀ addr : BitVec 14,
    (addr.toNat ≤ 0x0fff → romRead addr = bsig0 (BitVec.ofNat 32 addr.toNat)) ∧
    (0x1000 ≤ addr.toNat ∧ addr.toNat ≤ 0x1fff → romRead addr = bsig1 (BitVec.ofNat 32 (addr.toNat - 0x1000))) ∧
    (0x2000 ≤ addr.toNat ∧ addr.toNat ≤ 0x2fff → romRead addr = ssig0 (BitVec.ofNat 32 (addr.toNat - 0x2000))) ∧
    (0x3000 ≤ addr.toNat → romRead addr = ssig1 (BitVec.ofNat 32 (addr.toNat - 0x3000)))) ∧
  (∀ sel idx, (romAddr sel idx).toNat = 0x1000 * sel.toNat + idx.toNat) ∧
  (∀ sel idx s, s.cfg.hasTables = true →
    ∃ t, runDrive (.tbl sel idx) s = .next t ∧ t.tblQ = some (romRead (romAddr sel idx)))

/-- 41_tables.md R106: table and formula agree at every index, read through both ports in any state. -/
def Obligations.TableAndFormulaAgree : Prop :=
  ∀ (idx : BitVec 12) (y z : Word) (s : State), s.cfg.hasTables = true →
    (∃ t u, exec (.tblBsig0 idx) s = .next t ∧ exec (.mixBsig0 (idx.setWidth 32) y z) s = .next u ∧ t.tblQ = some u.mixR) ∧
    (∃ t u, exec (.tblBsig1 idx) s = .next t ∧ exec (.mixBsig1 (idx.setWidth 32) y z) s = .next u ∧ t.tblQ = some u.mixR) ∧
    (∃ t u, exec (.tblSsig0 idx) s = .next t ∧ exec (.mixSsig0 (idx.setWidth 32) y z) s = .next u ∧ t.tblQ = some u.mixR) ∧
    (∃ t u, exec (.tblSsig1 idx) s = .next t ∧ exec (.mixSsig1 (idx.setWidth 32) y z) s = .next u ∧ t.tblQ = some u.mixR)

/-- 41_tables.md R107: without the ROM its port is absent and the TBL operations are refused by name, and every
other operation does exactly what it does with the ROM. -/
def Obligations.WithoutTheRomOnlyTblGoes : Prop :=
  ∀ s : State, s.cfg.hasTables = false →
    s.tblQ = none ∧
    (∀ idx, exec (.tblBsig0 idx) s = .refused .noTables ∧ exec (.tblBsig1 idx) s = .refused .noTables ∧
      exec (.tblSsig0 idx) s = .refused .noTables ∧ exec (.tblSsig1 idx) s = .refused .noTables) ∧
    (∀ i : Instr, i.wf s.cfg = true →
      exec i { s with cfg := { hasTables := true } } =
        match exec i s with
        | .next t => .next { t with cfg := { hasTables := true } }
        | .fault f => .fault f
        | .refused r => .refused r)

/-! ## RCE operations -/

/-- 42_round.md R113, whole: NOP outside RUN holds everything, the missing value of a..h included. -/
def Obligations.NopHolds : Prop :=
  (∀ p fsm, fsm = .idle ∨ fsm = .done → decode (.rcekey (rceKey 0#1 fsm 0b00#2) p) = .ok (.nop p)) ∧
  (∀ p s, s.fsm = .idle ∨ s.fsm = .done → exec (.nop p) s = .next s)

/-- 42_round.md R114, whole: LOAD outside RUN. -/
def Obligations.LoadFollowsItsRule : Prop :=
  (∀ p fsm, fsm = .idle ∨ fsm = .done → decode (.rcekey (rceKey 0#1 fsm 0b01#2) p) = .ok (.load p)) ∧
  (∀ p s, s.fsm = .idle ∨ s.fsm = .done →
    exec (.load p) s = .next { s with regs := unpack p.cv, regsDefined := true, ctr := 0, fsm := .idle }) ∧
  (∀ p s, s.fsm = .idle ∨ s.fsm = .done → ∃ t, exec (.load p) s = .next t ∧ t.done = false ∧ t.busy = false ∧
    observeStateOut t = .ok p.cv ∧ ∀ q, exec (.load q) t = exec (.load q) s) ∧
  (∀ p s, s.fsm = .idle ∨ s.fsm = .done →
    p.cv = 0x6a09e667bb67ae853c6ef372a54ff53a510e527f9b05688c1f83d9ab5be0cd19#256 →
    ∃ t, exec (.load p) s = .next t ∧ t.fsm = .idle ∧ t.ctr = 0 ∧
      t.regs = { a := 0x6a09e667#32, b := 0xbb67ae85#32, c := 0x3c6ef372#32, d := 0xa54ff53a#32,
                 e := 0x510e527f#32, f := 0x9b05688c#32, g := 0x1f83d9ab#32, h := 0x5be0cd19#32 })

/-- 42_round.md R115, whole: START outside RUN enters RUN and applies no round, round 0 being the next edge's; ROUND itself runs on a..h that hold
no value, and the model fault `UninitRead` is the checked step's: the model's DESIGN CHOICE, log 3. -/
def Obligations.StartFollowsItsRule : Prop :=
  (∀ p fsm, fsm = .idle ∨ fsm = .done → decode (.rcekey (rceKey 0#1 fsm 0b10#2) p) = .ok (.start p)) ∧
  (∀ p s, s.fsm = .idle ∨ s.fsm = .done → exec (.start p) s = .next { s with ctr := 0, fsm := .run }) ∧
  (∀ p s, s.fsm = .idle ∨ s.fsm = .done → ∃ t, exec (.start p) s = .next t ∧ t.busy = true ∧ t.done = false ∧
    t.roundIdx = 0 ∧ ∀ q, ∃ u, exec (.round 0b00#2 q) t = .next u ∧ u.regs = roundFn s.regs q.k q.w ∧ u.ctr = 1) ∧
  (∀ p s t cmd q rest, s.fsm = .idle ∨ s.fsm = .done → s.regsDefined = false → exec (.start p) s = .next t →
    ∃ r, checkedStep { t with host := .edge 0#1 cmd q :: rest } = .fault (.uninitRead r))

/-- 42_round.md R116, whole: LOADSTART outside RUN, which is LOAD and then START one edge sooner. -/
def Obligations.LoadstartFollowsItsRule : Prop :=
  (∀ p fsm, fsm = .idle ∨ fsm = .done → decode (.rcekey (rceKey 0#1 fsm 0b11#2) p) = .ok (.loadstart p)) ∧
  (∀ p s, s.fsm = .idle ∨ s.fsm = .done →
    exec (.loadstart p) s = .next { s with regs := unpack p.cv, regsDefined := true, ctr := 0, fsm := .run }) ∧
  (∀ p q s, s.fsm = .idle ∨ s.fsm = .done → ∃ t u, exec (.load p) s = .next t ∧ exec (.start q) t = .next u ∧
    exec (.loadstart p) s = .next u ∧ u.busy = true ∧ u.done = false)

/-- 42_round.md R117, whole: ROUND in RUN, with the wrap of `ctr`, the step to DONE, the sticky `err`, the
wrap-around corner and the example. ROUND runs on registers that hold no value too, and the model fault
`UninitRead` is the checked step's: the model's DESIGN CHOICE, log 3. -/
def Obligations.RoundFollowsItsRule : Prop :=
  (∀ cmd p, decode (.rcekey (rceKey 0#1 .run cmd) p) = .ok (.round cmd p)) ∧
  (∀ cmd p s, s.fsm = .run →
    exec (.round cmd p) s = .next { s with
      regs := roundFn s.regs p.k p.w
      ctr := if s.ctr = 63#6 then 0 else s.ctr + 1
      fsm := if s.ctr = 63#6 then .done else .run
      err := if cmd = 0b00#2 then s.err else true }) ∧
  (∀ cmd p s rest, s.fsm = .run → s.regsDefined = false → s.host = .edge 0#1 cmd p :: rest →
    ∃ r, checkedStep s = .fault (.uninitRead r)) ∧
  (let o : Word := 0xffffffff#32
   let s : RoundState := { a := o, b := o, c := o, d := o, e := o, f := o, g := o, h := o }
   roundT1 s o o = 0xfffffffb#32 ∧ roundT2 s = 0xfffffffe#32 ∧
     roundFn s o o = { s with a := 0xfffffff9#32, e := 0xfffffffa#32 }) ∧
  (∀ p s, s.fsm = .run → s.ctr = 0 →
    s.regs = { a := 0x6a09e667#32, b := 0xbb67ae85#32, c := 0x3c6ef372#32, d := 0xa54ff53a#32,
               e := 0x510e527f#32, f := 0x9b05688c#32, g := 0x1f83d9ab#32, h := 0x5be0cd19#32 } →
    p.k = 0x428a2f98#32 → p.w = 0x61626380#32 →
    ∃ t, exec (.round 0b00#2 p) s = .next t ∧ t.ctr = 1 ∧
      t.regs = { a := 0x5d6aebcd#32, b := 0x6a09e667#32, c := 0xbb67ae85#32, d := 0x3c6ef372#32,
                 e := 0xfa2a4622#32, f := 0x510e527f#32, g := 0x9b05688c#32, h := 0x1f83d9ab#32 })

/-- 42_round.md R112: an edge executed as ROUND outside RUN has its command's effect. The decoder gives ROUND
in RUN only, so this is the model's completion of the rule (log 11). -/
def Obligations.RoundOutsideRunIsTheCommand : Prop :=
  ∀ p s, s.fsm = .idle ∨ s.fsm = .done →
    exec (.round 0b00#2 p) s = exec (.nop p) s ∧ exec (.round 0b01#2 p) s = exec (.load p) s ∧
    exec (.round 0b10#2 p) s = exec (.start p) s ∧ exec (.round 0b11#2 p) s = exec (.loadstart p) s

/-- 30_encoding.md R67 and R69: in `fsm = 11` every RCE operation but RESET is refused by that name, and RESET
completes. -/
def Obligations.UnreachableFsmIsRefusedByName : Prop :=
  ∀ p s, s.fsm = .unreachable →
    exec (.nop p) s = .refused .unreachableFsm ∧ exec (.load p) s = .refused .unreachableFsm ∧
    exec (.start p) s = .refused .unreachableFsm ∧ exec (.loadstart p) s = .refused .unreachableFsm ∧
    (∀ cmd, exec (.round cmd p) s = .refused .unreachableFsm) ∧
    ∃ t, exec (.reset p) s = .next t ∧ t.fsm = .idle

/-- 70_reset_and_hazards.md R160, whole: RESET in every state, `fsm = 11` included, whatever the other inputs.
What a..h hold afterwards is some value the statement does not fix, and a look at it is `UninitObserve`. -/
def Obligations.ResetFollowsItsRule : Prop :=
  (∀ p fsm cmd, decode (.rcekey (rceKey 1#1 fsm cmd) p) = .ok (.reset p)) ∧
  (∀ p s, ∃ regs draws,
    exec (.reset p) s = .next { s with regs := regs, regsDefined := false, ctr := 0, fsm := .idle, err := false, draws := draws }) ∧
  (∀ p s, ∃ t, exec (.reset p) s = .next t ∧ t.busy = false ∧ t.done = false ∧ t.errOut = false ∧
    observeStateOut t = .error .uninitObserve)

/-- 70_reset_and_hazards.md R161: a second reset edge changes nothing but the unspecified bits of a..h, and the
other ports do not notice a reset. -/
def Obligations.OneResetEdgeIsEnough : Prop :=
  ∀ p q s, ∃ t u, exec (.reset p) s = .next t ∧ exec (.reset q) t = .next u ∧
    u = { t with regs := u.regs, draws := u.draws } ∧ t.mix = s.mix ∧ t.tbl = s.tbl

/-- 42_round.md R110 and R111: the round function, and the source's listing read line by line, which gives
the same. -/
def Obligations.RoundFunctionIsTheListing : Prop :=
  ∀ (s : RoundState) (k w : Word),
    (let t1 := s.h + bsig1 s.e + ch s.e s.f s.g + k + w
     let t2 := bsig0 s.a + maj s.a s.b s.c
     roundFn s k w = { a := t1 + t2, b := s.a, c := s.b, d := s.c, e := s.d + t1, f := s.e, g := s.f, h := s.g }) ∧
    (let t1 := s.h + bsig1 s.e + ch s.e s.f s.g + k + w
     let t2 := bsig0 s.a + maj s.a s.b s.c
     let s1 := { s with h := s.g }
     let s2 := { s1 with g := s1.f }
     let s3 := { s2 with f := s2.e }
     let s4 := { s3 with e := s3.d + t1 }
     let s5 := { s4 with d := s4.c }
     let s6 := { s5 with c := s5.b }
     let s7 := { s6 with b := s6.a }
     roundFn s k w = { s7 with a := t1 + t2 })

/-- 42_round.md R124: the all-zero state with zero K and w is a fixed point of one round and of any number. -/
def Obligations.AllZeroIsAFixedPoint : Prop :=
  roundFn RoundState.zero 0 0 = RoundState.zero ∧
  ∀ n, rounds RoundState.zero (List.replicate n (0, 0)) = RoundState.zero

/-- 20_memory.md R42: the place of each register on the 256-bit buses; packing and unpacking are inverse. -/
def Obligations.BusPacking : Prop :=
  (∀ (v : CvBus) (r : Reg), (unpack v).get r = v.extractLsb' (224 - 32 * r.index) 32) ∧
  (∀ (s : RoundState) (r : Reg), (pack s).extractLsb' (224 - 32 * r.index) 32 = s.get r) ∧
  (∀ s, unpack (pack s) = s) ∧ (∀ v, pack (unpack v) = v)

/-- 10_state.md R25: the outputs are these functions of the state. -/
def Obligations.OutputsFollowTheState : Prop :=
  ∀ s : State, (s.busy = true ↔ s.fsm = .run) ∧ (s.done = true ↔ s.fsm = .done) ∧ s.errOut = s.err ∧
    s.roundIdx = s.ctr ∧
    s.stateOut = s.regs.a ++ s.regs.b ++ s.regs.c ++ s.regs.d ++ s.regs.e ++ s.regs.f ++ s.regs.g ++ s.regs.h

/-- 10_state.md R32: the values after reset, and the outputs that follow; a..h hold no value a claim may read. -/
def Obligations.ResetStateValues : Prop :=
  State.reset.fsm = .idle ∧ State.reset.ctr = 0 ∧ State.reset.err = false ∧
  State.reset.busy = false ∧ State.reset.done = false ∧ State.reset.errOut = false ∧ State.reset.roundIdx = 0 ∧
  observeStateOut State.reset = .error .uninitObserve ∧
  (∀ sel idx, ∃ t, runDrive (.tbl sel idx) State.reset = .next t ∧ t.tblQ = some (romRead (romAddr sel idx)))

/-! ## The step -/

/-- When the host's next drive decodes to an operation, the step is that operation on the state whose list has
lost the drive; when it is rejected, the step is refused by that name; with no drive left, the step is the one
of some drive that nothing fixes (log 5, log 6). -/
def Obligations.StepRunsTheDecodedDrive : Prop :=
  (∀ (s : State) (d : Drive) (rest : List Drive) (i : Instr), s.host = d :: rest → decode (s.portWord d) = .ok i →
    step s = exec i { s with host := rest }) ∧
  (∀ (s : State) (d : Drive) (rest : List Drive) (e : DecodeError), s.host = d :: rest →
    decode (s.portWord d) = .error e → step s = .refused .unreachableFsm) ∧
  (∀ s : State, s.host = [] → ∃ d, step s = runDrive d { s with draws := s.draws + 1 }) ∧
  (∀ (s : State) op x y z sel idx, s.portWord (.mix op x y z) = .mixop op x y z ∧
    s.portWord (.tbl sel idx) = .tblsel sel idx)

/-- 42_round.md R112, with the priority of 60_exceptions.md R144: exactly one operation at each edge; and a drive
that is no edge changes nothing of the RCE. -/
def Obligations.EdgeStepIsOneOperation : Prop :=
  (∀ (s : State) (rst : BitVec 1) (cmd : BitVec 2) (p : EdgePorts) (rest : List Drive),
    s.host = .edge rst cmd p :: rest →
    step s =
      if rst = 1#1 then exec (.reset p) { s with host := rest }
      else if s.fsm = .run then exec (.round cmd p) { s with host := rest }
      else if s.fsm = .unreachable then .refused .unreachableFsm
      else if cmd = 0b00#2 then exec (.nop p) { s with host := rest }
      else if cmd = 0b01#2 then exec (.load p) { s with host := rest }
      else if cmd = 0b10#2 then exec (.start p) { s with host := rest }
      else exec (.loadstart p) { s with host := rest }) ∧
  (∀ (s t : State) (d : Drive) (rest : List Drive), s.host = d :: rest → (∀ rst cmd p, d ≠ .edge rst cmd p) →
    step s = .next t → t.regs = s.regs ∧ t.ctr = s.ctr ∧ t.fsm = s.fsm ∧ t.err = s.err)

/-- 42_round.md R122: the transition table, every row, for `rst = 0`; and the row of `rst = 1`. That the `ctr` a
NOP keeps is 0 is said of the states of the invariant (R123). -/
def Obligations.FsmTransitionTable : Prop :=
  ∀ (s : State) (p : EdgePorts),
    (s.fsm = .idle ∨ s.fsm = .done →
      (∃ t, runDrive (.edge 0#1 0b00#2 p) s = .next t ∧ t.fsm = s.fsm ∧ t.ctr = s.ctr ∧ t.regs = s.regs ∧
        (StateInv s → t.ctr = 0)) ∧
      (∃ t, runDrive (.edge 0#1 0b01#2 p) s = .next t ∧ t.fsm = .idle ∧ t.ctr = 0 ∧ t.regs = unpack p.cv) ∧
      (∃ t, runDrive (.edge 0#1 0b10#2 p) s = .next t ∧ t.fsm = .run ∧ t.ctr = 0 ∧ t.regs = s.regs) ∧
      (∃ t, runDrive (.edge 0#1 0b11#2 p) s = .next t ∧ t.fsm = .run ∧ t.ctr = 0 ∧ t.regs = unpack p.cv)) ∧
    (∀ cmd, s.fsm = .run → s.ctr.toNat < 63 →
      ∃ t, runDrive (.edge 0#1 cmd p) s = .next t ∧ t.fsm = .run ∧ t.ctr.toNat = s.ctr.toNat + 1 ∧
        t.regs = roundFn s.regs p.k p.w) ∧
    (∀ cmd, s.fsm = .run → s.ctr.toNat = 63 →
      ∃ t, runDrive (.edge 0#1 cmd p) s = .next t ∧ t.fsm = .done ∧ t.ctr = 0 ∧ t.regs = roundFn s.regs p.k p.w) ∧
    (∀ cmd, ∃ t, runDrive (.edge 1#1 cmd p) s = .next t ∧ t.fsm = .idle ∧ t.ctr = 0 ∧ t.err = false ∧
      t.regsDefined = false)

/-- The machine raises no fault in any state (60_exceptions.md R140; that the model's `UninitRead` is the checked
step's and not the step's is the model's DESIGN CHOICE, log 3), refuses for two named reasons only, and in
a state of the invariant with the ROM present always completes. -/
def Obligations.StepIsTotal : Prop :=
  (∀ s f, step s ≠ .fault f) ∧
  (∀ s r, step s = .refused r →
    (r = .unreachableFsm ∧ s.fsm = .unreachable) ∨ (r = .noTables ∧ s.cfg.hasTables = false)) ∧
  (∀ s, StateInv s → s.cfg.hasTables = true → ∃ t, step s = .next t)

/-- The invariant: a legal control state (10_state.md R23), `ctr = 0` outside RUN (42_round.md R123), and the
combinational ports agreeing with their inputs (40_mixing.md R91, 41_tables.md R108). Every step keeps it. -/
def Obligations.EveryStepKeepsTheInvariant : Prop :=
  ∀ s t, StateInv s → step s = .next t → StateInv t

/-- The state after reset meets the invariant. The port wires it starts with are the model's choice (log 8). -/
def Obligations.ResetMeetsTheInvariant : Prop := StateInv State.reset

/-- 42_round.md R123: in a state of the invariant `round_idx = 0` whenever `busy = 0`, before and after a step. -/
def Obligations.RoundIdxIsZeroWhenNotBusy : Prop :=
  ∀ s, StateInv s → (s.busy = false → s.roundIdx = 0) ∧
    ∀ t, step s = .next t → t.busy = false → t.roundIdx = 0

/-- 10_state.md R24: `err` is set by a command that arrives in RUN and by nothing else, cleared by reset and by
nothing else, and read by nothing: with `err` changed beforehand, all other fields come out the same. -/
def Obligations.ErrIsStickyAndUnread : Prop :=
  (∀ d s t, runDrive d s = .next t →
    t.err = if isReset d then false else (s.err || (s.busy && isCommand d))) ∧
  (∀ d s t b, runDrive d s = .next t → ∃ e, runDrive d { s with err := b } = .next { t with err := e })

/-- 70_reset_and_hazards.md R164: a command while `busy` gives the very round that NOP gives, with `err` set,
the last round included; `err` stays until a reset; and a drive that keeps the command rule never sets it. -/
def Obligations.CommandWhileBusyOnlySetsErr : Prop :=
  (∀ p s, s.busy = true → ∃ t, exec (.nop p) s = .next t ∧
    t.regs = roundFn s.regs p.k p.w ∧
    exec (.load p) s = .next { t with err := true } ∧ exec (.start p) s = .next { t with err := true } ∧
    exec (.loadstart p) s = .next { t with err := true } ∧
    ∀ cmd, cmd ≠ 0b00#2 → exec (.round cmd p) s = .next { t with err := true }) ∧
  (∀ d s t, s.err = true → isReset d = false → runDrive d s = .next t → t.err = true) ∧
  (∀ d s t, keepsCommandRule s d = true → s.err = false → runDrive d s = .next t → t.err = false)

/-- 60_exceptions.md R143: `done` stays 1 until an accepted command or a reset, either of which clears it. -/
def Obligations.DoneStaysUntilCommandOrReset : Prop :=
  ∀ d s t, s.done = true → runDrive d s = .next t →
    (t.done = true ↔ isCommand d = false ∧ isReset d = false)

/-- 10_state.md R21 and 20_memory.md R46: a drive that changes a..h is a reset, a round in RUN, or a LOAD or
LOADSTART in IDLE or DONE. -/
def Obligations.WhatWritesTheRegisterFile : Prop :=
  ∀ d s t, runDrive d s = .next t → t.regs ≠ s.regs →
    ∃ rst cmd p, d = .edge rst cmd p ∧
      (rst = 1#1 ∨ (rst = 0#1 ∧ s.fsm = .run ∧ t.regs = roundFn s.regs p.k p.w) ∨
        (rst = 0#1 ∧ (s.fsm = .idle ∨ s.fsm = .done) ∧ (cmd = 0b01#2 ∨ cmd = 0b11#2) ∧ t.regs = unpack p.cv))

/-- 10_state.md R33: a..h hold a value from a LOAD or LOADSTART on until the next reset, whatever drives come
between. The flag `regsDefined` is the model's (log 4). -/
def Obligations.WindowWithoutAValue : Prop :=
  (∀ d s t, runDrive d s = .next t →
    t.regsDefined = match d with
      | .edge rst cmd _ => rst == 0#1 && (s.regsDefined || (!s.busy && (cmd == 0b01#2 || cmd == 0b11#2)))
      | .mix _ _ _ _ => s.regsDefined
      | .tbl _ _ => s.regsDefined) ∧
  (∀ s, observeStateOut s = if s.regsDefined then .ok s.stateOut else .error .uninitObserve)

/-- 70_reset_and_hazards.md R165: `cv_in` matters to LOAD and LOADSTART outside RUN, `k_in` and `w_in` to a
round, and nothing else samples them. -/
def Obligations.UnsampledInputsDoNotMatter : Prop :=
  ∀ (p q : EdgePorts) (s : State),
    exec (.reset p) s = exec (.reset q) s ∧
    (s.fsm = .idle ∨ s.fsm = .done →
      exec (.nop p) s = exec (.nop q) s ∧ exec (.start p) s = exec (.start q) s ∧
      (p.cv = q.cv → exec (.load p) s = exec (.load q) s ∧ exec (.loadstart p) s = exec (.loadstart q) s)) ∧
    (s.fsm = .run → p.k = q.k → p.w = q.w →
      exec (.nop p) s = exec (.nop q) s ∧ exec (.load p) s = exec (.load q) s ∧
      exec (.start p) s = exec (.start q) s ∧ exec (.loadstart p) s = exec (.loadstart q) s ∧
      ∀ cmd, exec (.round cmd p) s = exec (.round cmd q) s)

/-! ## Independence -/

/-- 20_memory.md R51: the ports and the RCE share no state. A MIX or ROM drive leaves the RCE; an edge leaves
both ports; what an edge does to the RCE depends on the RCE alone; what a MIX or ROM drive answers depends on
its port alone. -/
def Obligations.PortsAndRceAreIndependent : Prop :=
  (∀ op x y z s t, runDrive (.mix op x y z) s = .next t → SameRce s t ∧ t.tbl = s.tbl) ∧
  (∀ sel idx s t, runDrive (.tbl sel idx) s = .next t → SameRce s t ∧ t.mix = s.mix) ∧
  (∀ rst cmd p s t, runDrive (.edge rst cmd p) s = .next t → t.mix = s.mix ∧ t.tbl = s.tbl ∧ t.cfg = s.cfg) ∧
  (∀ rst cmd p s s' t, SameRce s s' → runDrive (.edge rst cmd p) s = .next t →
    ∃ t', runDrive (.edge rst cmd p) s' = .next t' ∧ SameRce t t') ∧
  (∀ op x y z s s', ∃ t t', runDrive (.mix op x y z) s = .next t ∧ runDrive (.mix op x y z) s' = .next t' ∧
    t.mix = t'.mix) ∧
  (∀ sel idx s s', s.cfg.hasTables = true → s'.cfg.hasTables = true →
    ∃ t t', runDrive (.tbl sel idx) s = .next t ∧ runDrive (.tbl sel idx) s' = .next t' ∧ t.tbl = t'.tbl)

/-- 42_round.md R119: no data value changes the control. Two states of the same control, driven with the same
`rst` and `cmd` and with any words, come to the same control. -/
def Obligations.ControlIgnoresData : Prop :=
  ∀ rst cmd p p' s s' t, SameControl s s' → runDrive (.edge rst cmd p) s = .next t →
    ∃ t', runDrive (.edge rst cmd p') s' = .next t' ∧ SameControl t t'

/-- 60_exceptions.md R149: copies share no state. A drive to one copy is that copy's own step and leaves every
other copy as it was. -/
def Obligations.InstancesShareNothing : Prop :=
  ∀ (n : Nat) (sys sys' : System n) (j : Fin n), sys.stepAt j = .next sys' →
    step (sys.get j) = .next (sys'.get j) ∧ ∀ i, i ≠ j → sys'.get i = sys.get i

/-! ## Model faults beside the step -/

/-- 60_exceptions.md R142: the model faults and refusals of its table, everything else being the plain step, and a
fault that stays. The table refuses "a state" with `fsm = 11`; the model refuses it at an edge with `rst = 0`, as
30_encoding.md R67 has it, while RESET and the other ports run (DEDUCED, log 10). That the faults are those of
`checkedStep` and `observeStateOut` (log 3), what `runFrom` takes for a state that reset left (log 16) and the register
a fault names (log 17) are the model's DESIGN CHOICE. -/
def Obligations.ModelFaultsWhereTheTablePutsThem : Prop :=
  (∀ s cmd p rest, s.host = .edge 0#1 cmd p :: rest → s.fsm = .run → s.regsDefined = false →
    ∃ r, checkedStep s = .fault (.uninitRead r)) ∧
  (∀ s, ¬ (s.isRound s.nextDrive.1 = true ∧ s.regsDefined = false) → checkedStep s = step s) ∧
  (∀ s, s.regsDefined = false → observeStateOut s = .error .uninitObserve) ∧
  (∀ s cmd p rest, s.host = .edge 0#1 cmd p :: rest → s.fsm = .unreachable →
    checkedStep s = .refused .unreachableFsm) ∧
  (∀ k s, s.isPostReset = false → runFrom k s = .refused .preReset) ∧
  (∀ s sel idx rest, s.host = .tbl sel idx :: rest → s.cfg.hasTables = false →
    checkedStep s = .refused .noTables) ∧
  (∀ k m s f, checkedRun k s = .fault f → checkedRun (k + m) s = .fault f)

/-- A checked run that ends in a state is the plain run to the same state (log 3). -/
def Obligations.CheckedRunRefinesTheRun : Prop :=
  ∀ k s t, checkedRun k s = .next t → run k s = .next t

/-- 70_reset_and_hazards.md R160 and 10_state.md R34: a run may start in what a reset edge leaves, whatever
state it finds, and from there LOAD (42_round.md R114) then START (R115) then a round (R117) raise no model fault
of 60_exceptions.md R142. What counts as a state that reset left (`isPostReset`, `runFrom`) is the model's DESIGN
CHOICE, log 16, and so is the checked step, log 3. -/
def Obligations.ResetThenLoadStartsACheckedRun : Prop :=
  (∀ p s, ∃ t, exec (.reset p) s = .next t ∧ t.isPostReset = true) ∧
  State.reset.isPostReset = true ∧
  (∀ s cv k w rest, s.isPostReset = true → s.host = Trace.load cv :: Trace.start :: Trace.nop k w :: rest →
    runFrom 3 s = .next { s with regs := roundFn (unpack cv) k w, regsDefined := true, ctr := 1, fsm := .run, host := rest })

/-! ## Whole compressions -/

/-- 42_round.md R119 and R120: from RUN with `ctr = 0`, the next edges with `rst = 0`, at most 64 of them and
whatever commands they carry (a command only sets `err`, R117), apply rounds 0, 1, … in order, one each; after fewer than 64 the engine is in RUN
at that count, after the 64th it is DONE with `ctr = 0`. -/
def Obligations.EdgesApplyRoundsInOrder : Prop :=
  ∀ (s : State) (es : List (BitVec 2 × EdgePorts)) (rest : List Drive),
    s.fsm = .run → s.ctr = 0 → es.length ≤ 64 →
    s.host = es.map (fun e => Drive.edge 0#1 e.1 e.2) ++ rest →
    run es.length s = .next { s with
      regs := rounds s.regs (es.map (fun e => (e.2.k, e.2.w)))
      ctr := BitVec.ofNat 6 es.length
      fsm := if es.length = 64 then .done else .run
      err := s.err || es.any (fun e => e.1 != 0b00#2)
      host := rest }

/-- 30_encoding.md R72: COMPRESS, from IDLE or DONE, ends 65 edges later in DONE with a..h the state after the
64 rounds, nothing else changed. -/
def Obligations.CompressRunsTheSixtyFourRounds : Prop :=
  ∀ (s : State) (cv : CvBus) (K w : Vector Word 64) (rest : List Drive),
    s.fsm = .idle ∨ s.fsm = .done → s.host = Trace.compress cv K w ++ rest →
    run 65 s = .next { s with
      regs := rounds (unpack cv) (K.toList.zip w.toList)
      regsDefined := true
      ctr := 0
      fsm := .done
      host := rest }

/-! ## The inputs -/

/-- 10_state.md R31: the port values are parameters of the step and no state of the machine. What a drive does is
`Hardware.step` of the hardware's own state, the port values and, for a reset, unspecified words; nothing else of
State has a part in it, the waiting drives least of all; and a run of the closed machine over a list is
`Hardware.steps` over that list, K and w being its parameters. That the list waits beside the hardware in State is
the model's DESIGN CHOICE, log 5. -/
def Obligations.InputsAreParametersOfTheStep : Prop :=
  (∀ (d : Drive) (s : State) (l : List Drive),
    runDrive d { s with host := l } =
      match runDrive d s with
      | .next t => .next { t with host := l }
      | .fault f => .fault f
      | .refused r => .refused r) ∧
  (∀ (d : Drive) (s t : State), runDrive d s = .next t → t.host = s.host) ∧
  (∀ (ds rest : List Drive) (s : State),
    run ds.length { s with host := ds ++ rest } =
      match runDrives ds s with
      | .next t => .next { t with host := rest }
      | .fault f => .fault f
      | .refused r => .refused r) ∧
  (∀ (d : Drive) (s : State),
    runDrive d s =
      match s.toHardware.step d (freeRegs s.stream s.draws) with
      | .next m => .next { s with toHardware := m, draws := if isReset d then s.draws + 8 else s.draws }
      | .fault f => .fault f
      | .refused r => .refused r) ∧
  (∀ (ds rest : List Drive) (s t : State), run ds.length { s with host := ds ++ rest } = .next t →
    ∃ us : List RoundState, us.length = ds.length ∧ Hardware.steps (ds.zip us) s.toHardware = .next t.toHardware)
end

