-- ==== Sys2Proof/Laws/Decode.lean ====
section
/-!
SUPPORT. The encoding tables: their rows do not overlap, and a key's fields are the fields it was made of.
-/

namespace Sys2Proof

/-- Two rows share no select. -/
abbrev Row.Disjoint {n : Nat} (r q : Row n) : Prop := ∀ v : BitVec n, ¬ (r.covers v && q.covers v)

def mixRows : List (Row 3) :=
  [rowMixBsig0, rowMixBsig1, rowMixSsig0, rowMixSsig1, rowMixCh, rowMixMaj, rowMixReserved]

def tblRows : List (Row 2) := [rowTblBsig0, rowTblBsig1, rowTblSsig0, rowTblSsig1]

def keyRows : List (Row 5) := [rowReset, rowNop, rowLoad, rowStart, rowLoadstart, rowRound]

theorem mixRows_disjoint : mixRows.Pairwise Row.Disjoint := by decide

theorem tblRows_disjoint : tblRows.Pairwise Row.Disjoint := by decide

theorem keyRows_disjoint : keyRows.Pairwise Row.Disjoint := by decide

theorem keyRst_rceKey (rst : BitVec 1) (fsm : Fsm) (cmd : BitVec 2) : keyRst (rceKey rst fsm cmd) = rst := by
  cases fsm <;> revert rst cmd <;> decide

theorem keyFsm_rceKey (rst : BitVec 1) (fsm : Fsm) (cmd : BitVec 2) : keyFsm (rceKey rst fsm cmd) = fsm := by
  cases fsm <;> revert rst cmd <;> decide

theorem keyCmd_rceKey (rst : BitVec 1) (fsm : Fsm) (cmd : BitVec 2) : keyCmd (rceKey rst fsm cmd) = cmd := by
  cases fsm <;> revert rst cmd <;> decide

theorem rceKey_fields (key : BitVec 5) : rceKey (keyRst key) (keyFsm key) (keyCmd key) = key := by
  revert key; decide

/-- Every `cmd` is one of the four. -/
theorem cmd_cases (cmd : BitVec 2) :
    cmd = cmdNop ∨ cmd = cmdLoad ∨ cmd = cmdStart ∨ cmd = cmdLoadstart := by
  revert cmd; decide

theorem decodeKey_reset (fsm : Fsm) (cmd : BitVec 2) (p : EdgePorts) :
    decodeKey (rceKey 1#1 fsm cmd) p = .ok (.reset p) := by
  have h : rowReset.covers (rceKey 1#1 fsm cmd) = true := by cases fsm <;> revert cmd <;> decide
  simp [decodeKey, h]

theorem decodeKey_run (cmd : BitVec 2) (p : EdgePorts) :
    decodeKey (rceKey 0#1 .run cmd) p = .ok (.round cmd p) := by
  have h : ∀ r ∈ [rowReset, rowNop, rowLoad, rowStart, rowLoadstart],
      r.covers (rceKey 0#1 .run cmd) = false := by revert cmd; decide
  have hr : rowRound.covers (rceKey 0#1 .run cmd) = true := by revert cmd; decide
  simp [decodeKey, h, hr, keyCmd_rceKey]

theorem decodeKey_unreachable (cmd : BitVec 2) (p : EdgePorts) :
    decodeKey (rceKey 0#1 .unreachable cmd) p = .error .unreachableFsm := by
  have h : ∀ r ∈ keyRows, r.covers (rceKey 0#1 .unreachable cmd) = false := by revert cmd; decide
  simp [keyRows] at h
  simp [decodeKey, h]

/-- Outside RUN the key selects the command's own operation (30_encoding.md R67). -/
theorem decodeKey_ready {fsm : Fsm} (h : fsm = .idle ∨ fsm = .done) (p : EdgePorts) :
    decodeKey (rceKey 0#1 fsm cmdNop) p = .ok (.nop p) ∧
    decodeKey (rceKey 0#1 fsm cmdLoad) p = .ok (.load p) ∧
    decodeKey (rceKey 0#1 fsm cmdStart) p = .ok (.start p) ∧
    decodeKey (rceKey 0#1 fsm cmdLoadstart) p = .ok (.loadstart p) := by
  rcases h with rfl | rfl <;>
    simp [decodeKey, Row.covers, rceKey, Fsm.bits, cmdNop, cmdLoad, cmdStart, cmdLoadstart, rowReset, rowNop,
      rowLoad, rowStart, rowLoadstart]

end Sys2Proof
end

