-- ==== Sys2Proof/Laws/State.lean ====
section
/-!
SUPPORT. What each update of the hardware, and of what stands beside it, does to each field, true by `rfl`, so that
no later proof unfolds a record update.
-/

namespace Sys2Proof.Machine

variable (m : Hardware) (s : State)

/-! `driveMix` -/

@[simp] theorem Hardware.driveMix_regs (op : BitVec 3) (x y z r : Word) (e : Bool) : (m.driveMix op x y z r e).regs = m.regs := rfl
@[simp] theorem Hardware.driveMix_regsDefined (op : BitVec 3) (x y z r : Word) (e : Bool) : (m.driveMix op x y z r e).regsDefined = m.regsDefined := rfl
@[simp] theorem Hardware.driveMix_ctr (op : BitVec 3) (x y z r : Word) (e : Bool) : (m.driveMix op x y z r e).ctr = m.ctr := rfl
@[simp] theorem Hardware.driveMix_fsm (op : BitVec 3) (x y z r : Word) (e : Bool) : (m.driveMix op x y z r e).fsm = m.fsm := rfl
@[simp] theorem Hardware.driveMix_err (op : BitVec 3) (x y z r : Word) (e : Bool) : (m.driveMix op x y z r e).err = m.err := rfl
@[simp] theorem Hardware.driveMix_mix (op : BitVec 3) (x y z r : Word) (e : Bool) : (m.driveMix op x y z r e).mix = { op := op, x := x, y := y, z := z, r := r, err := e } := rfl
@[simp] theorem Hardware.driveMix_tbl (op : BitVec 3) (x y z r : Word) (e : Bool) : (m.driveMix op x y z r e).tbl = m.tbl := rfl
@[simp] theorem Hardware.driveMix_cfg (op : BitVec 3) (x y z r : Word) (e : Bool) : (m.driveMix op x y z r e).cfg = m.cfg := rfl

/-! `driveTbl` -/

@[simp] theorem Hardware.driveTbl_regs (sel : BitVec 2) (idx : BitVec 12) : (m.driveTbl sel idx).regs = m.regs := rfl
@[simp] theorem Hardware.driveTbl_regsDefined (sel : BitVec 2) (idx : BitVec 12) : (m.driveTbl sel idx).regsDefined = m.regsDefined := rfl
@[simp] theorem Hardware.driveTbl_ctr (sel : BitVec 2) (idx : BitVec 12) : (m.driveTbl sel idx).ctr = m.ctr := rfl
@[simp] theorem Hardware.driveTbl_fsm (sel : BitVec 2) (idx : BitVec 12) : (m.driveTbl sel idx).fsm = m.fsm := rfl
@[simp] theorem Hardware.driveTbl_err (sel : BitVec 2) (idx : BitVec 12) : (m.driveTbl sel idx).err = m.err := rfl
@[simp] theorem Hardware.driveTbl_mix (sel : BitVec 2) (idx : BitVec 12) : (m.driveTbl sel idx).mix = m.mix := rfl
@[simp] theorem Hardware.driveTbl_tbl (sel : BitVec 2) (idx : BitVec 12) : (m.driveTbl sel idx).tbl = { sel := sel, idx := idx, q := romRead (romAddr sel idx) } := rfl
@[simp] theorem Hardware.driveTbl_cfg (sel : BitVec 2) (idx : BitVec 12) : (m.driveTbl sel idx).cfg = m.cfg := rfl

/-! `loadRegs` -/

@[simp] theorem Hardware.loadRegs_regs (cv : CvBus) : (m.loadRegs cv).regs = unpack cv := rfl
@[simp] theorem Hardware.loadRegs_regsDefined (cv : CvBus) : (m.loadRegs cv).regsDefined = true := rfl
@[simp] theorem Hardware.loadRegs_ctr (cv : CvBus) : (m.loadRegs cv).ctr = m.ctr := rfl
@[simp] theorem Hardware.loadRegs_fsm (cv : CvBus) : (m.loadRegs cv).fsm = m.fsm := rfl
@[simp] theorem Hardware.loadRegs_err (cv : CvBus) : (m.loadRegs cv).err = m.err := rfl
@[simp] theorem Hardware.loadRegs_mix (cv : CvBus) : (m.loadRegs cv).mix = m.mix := rfl
@[simp] theorem Hardware.loadRegs_tbl (cv : CvBus) : (m.loadRegs cv).tbl = m.tbl := rfl
@[simp] theorem Hardware.loadRegs_cfg (cv : CvBus) : (m.loadRegs cv).cfg = m.cfg := rfl

/-! `enter` -/

@[simp] theorem Hardware.enter_regs (f : Fsm) : (m.enter f).regs = m.regs := rfl
@[simp] theorem Hardware.enter_regsDefined (f : Fsm) : (m.enter f).regsDefined = m.regsDefined := rfl
@[simp] theorem Hardware.enter_ctr (f : Fsm) : (m.enter f).ctr = 0 := rfl
@[simp] theorem Hardware.enter_fsm (f : Fsm) : (m.enter f).fsm = f := rfl
@[simp] theorem Hardware.enter_err (f : Fsm) : (m.enter f).err = m.err := rfl
@[simp] theorem Hardware.enter_mix (f : Fsm) : (m.enter f).mix = m.mix := rfl
@[simp] theorem Hardware.enter_tbl (f : Fsm) : (m.enter f).tbl = m.tbl := rfl
@[simp] theorem Hardware.enter_cfg (f : Fsm) : (m.enter f).cfg = m.cfg := rfl

/-! `applyRound` -/

@[simp] theorem Hardware.applyRound_regs (cmd : BitVec 2) (p : EdgePorts) : (m.applyRound cmd p).regs = roundFn m.regs p.k p.w := rfl
@[simp] theorem Hardware.applyRound_regsDefined (cmd : BitVec 2) (p : EdgePorts) : (m.applyRound cmd p).regsDefined = m.regsDefined := rfl
@[simp] theorem Hardware.applyRound_ctr (cmd : BitVec 2) (p : EdgePorts) : (m.applyRound cmd p).ctr = ctrAfterRound m.ctr := rfl
@[simp] theorem Hardware.applyRound_fsm (cmd : BitVec 2) (p : EdgePorts) : (m.applyRound cmd p).fsm = fsmAfterRound m.ctr := rfl
@[simp] theorem Hardware.applyRound_err (cmd : BitVec 2) (p : EdgePorts) : (m.applyRound cmd p).err = errAfterRound m.err cmd := rfl
@[simp] theorem Hardware.applyRound_mix (cmd : BitVec 2) (p : EdgePorts) : (m.applyRound cmd p).mix = m.mix := rfl
@[simp] theorem Hardware.applyRound_tbl (cmd : BitVec 2) (p : EdgePorts) : (m.applyRound cmd p).tbl = m.tbl := rfl
@[simp] theorem Hardware.applyRound_cfg (cmd : BitVec 2) (p : EdgePorts) : (m.applyRound cmd p).cfg = m.cfg := rfl

/-! `resetTo` -/

@[simp] theorem Hardware.resetTo_regs (u : RoundState) : (m.resetTo u).regs = u := rfl
@[simp] theorem Hardware.resetTo_regsDefined (u : RoundState) : (m.resetTo u).regsDefined = false := rfl
@[simp] theorem Hardware.resetTo_ctr (u : RoundState) : (m.resetTo u).ctr = 0 := rfl
@[simp] theorem Hardware.resetTo_fsm (u : RoundState) : (m.resetTo u).fsm = .idle := rfl
@[simp] theorem Hardware.resetTo_err (u : RoundState) : (m.resetTo u).err = false := rfl
@[simp] theorem Hardware.resetTo_mix (u : RoundState) : (m.resetTo u).mix = m.mix := rfl
@[simp] theorem Hardware.resetTo_tbl (u : RoundState) : (m.resetTo u).tbl = m.tbl := rfl
@[simp] theorem Hardware.resetTo_cfg (u : RoundState) : (m.resetTo u).cfg = m.cfg := rfl

/-! `resetEdge` -/

@[simp] theorem State.resetEdge_toHardware : s.resetEdge.toHardware = s.resetTo (freeRegs s.stream s.draws) := rfl
@[simp] theorem State.resetEdge_host : s.resetEdge.host = s.host := rfl
@[simp] theorem State.resetEdge_stream : s.resetEdge.stream = s.stream := rfl
@[simp] theorem State.resetEdge_draws : s.resetEdge.draws = s.draws + 8 := rfl

end Sys2Proof.Machine
end

