-- ==== Sys2Proof/Laws/Ops.lean ====
section
/-!
SUPPORT. Everything each shared operation can do, once: what an edge, a command, a ROM read and the step of the
hardware answer, and a `State` that runs one of them.
-/

namespace Sys2Proof.Machine

variable {m n : Hardware}

/-- An edge with `rst = 0` that answers a next state is a command outside RUN or a round in RUN. -/
theorem Hardware.edge_next {cmd : BitVec 2} {p : EdgePorts} {ready : Hardware → Hardware}
    (h : m.edge cmd p ready = .next n) :
    ((m.fsm = .idle ∨ m.fsm = .done) ∧ n = ready m) ∨ (m.fsm = .run ∧ n = m.applyRound cmd p) := by
  unfold Hardware.edge at h
  split at h <;> simp_all

/-- An edge with `rst = 0` never faults. -/
theorem Hardware.edge_not_fault {cmd : BitVec 2} {p : EdgePorts} {ready : Hardware → Hardware} {f : Fault} :
    m.edge cmd p ready ≠ .fault f := by
  unfold Hardware.edge
  split <;> simp

/-- An edge with `rst = 0` refuses in `fsm = 11` only, and by that name. -/
theorem Hardware.edge_refused {cmd : BitVec 2} {p : EdgePorts} {ready : Hardware → Hardware} {r : Refusal}
    (h : m.edge cmd p ready = .refused r) : m.fsm = .unreachable ∧ r = .unreachableFsm := by
  unfold Hardware.edge at h
  split at h <;> simp_all

/-- In a legal control state an edge with `rst = 0` completes. -/
theorem Hardware.edge_ready {cmd : BitVec 2} {p : EdgePorts} {ready : Hardware → Hardware}
    (h : m.fsm = .idle ∨ m.fsm = .done) : m.edge cmd p ready = .next (ready m) := by
  rcases h with h | h <;> simp [Hardware.edge, h]

/-- In RUN an edge with `rst = 0` applies a round, whatever the command. -/
theorem Hardware.edge_run {cmd : BitVec 2} {p : EdgePorts} {ready : Hardware → Hardware} (h : m.fsm = .run) :
    m.edge cmd p ready = .next (m.applyRound cmd p) := by
  simp [Hardware.edge, h]

/-- A ROM read that answers a next state is one of an instance with the ROM. -/
theorem Hardware.lookup_next {sel : BitVec 2} {idx : BitVec 12} (h : m.lookup sel idx = .next n) :
    m.cfg.hasTables = true ∧ n = m.driveTbl sel idx := by
  unfold Hardware.lookup at h
  split at h <;> simp_all

/-- With the ROM a read completes. -/
theorem Hardware.lookup_present {sel : BitVec 2} {idx : BitVec 12} (h : m.cfg.hasTables = true) :
    m.lookup sel idx = .next (m.driveTbl sel idx) := by
  simp [Hardware.lookup, h]

/-- Without the ROM a read is refused by name. -/
theorem Hardware.lookup_absent {sel : BitVec 2} {idx : BitVec 12} (h : m.cfg.hasTables = false) :
    m.lookup sel idx = .refused .noTables := by
  simp [Hardware.lookup, h]

/-! What each command does outside RUN (30_encoding.md R66). -/

theorem Hardware.command_nop (m : Hardware) (p : EdgePorts) : m.command cmdNop p = m := by
  simp [Hardware.command]

theorem Hardware.command_load (m : Hardware) (p : EdgePorts) :
    m.command cmdLoad p = (m.loadRegs p.cv).enter .idle := by
  simp [Hardware.command, cmdNop, cmdLoad]

theorem Hardware.command_start (m : Hardware) (p : EdgePorts) : m.command cmdStart p = m.enter .run := by
  simp [Hardware.command, cmdNop, cmdLoad, cmdStart]

theorem Hardware.command_loadstart (m : Hardware) (p : EdgePorts) :
    m.command cmdLoadstart p = (m.loadRegs p.cv).enter .run := by
  simp [Hardware.command, cmdNop, cmdLoad, cmdStart, cmdLoadstart]

/-- What a command can do outside RUN, as cases. -/
theorem Hardware.command_cases (m : Hardware) (cmd : BitVec 2) (p : EdgePorts) :
    (cmd = cmdNop ∧ m.command cmd p = m) ∨
    (cmd = cmdLoad ∧ m.command cmd p = (m.loadRegs p.cv).enter .idle) ∨
    (cmd = cmdStart ∧ m.command cmd p = m.enter .run) ∨
    (cmd = cmdLoadstart ∧ m.command cmd p = (m.loadRegs p.cv).enter .run) := by
  rcases cmd_cases cmd with h | h | h | h
  · exact .inl ⟨h, h ▸ m.command_nop p⟩
  · exact .inr (.inl ⟨h, h ▸ m.command_load p⟩)
  · exact .inr (.inr (.inl ⟨h, h ▸ m.command_start p⟩))
  · exact .inr (.inr (.inr ⟨h, h ▸ m.command_loadstart p⟩))

/-- A command leaves the ports, the parameter and `err`. -/
theorem Hardware.command_frame (m : Hardware) (cmd : BitVec 2) (p : EdgePorts) :
    (m.command cmd p).mix = m.mix ∧ (m.command cmd p).tbl = m.tbl ∧ (m.command cmd p).cfg = m.cfg ∧
    (m.command cmd p).err = m.err := by
  rcases m.command_cases cmd p with ⟨-, h⟩ | ⟨-, h⟩ | ⟨-, h⟩ | ⟨-, h⟩ <;> simp [h]

/-! The step of the hardware (42_round.md R112), case by case. -/

@[simp] theorem Hardware.step_mix (op : BitVec 3) (x y z : Word) (u : RoundState) :
    m.step (.mix op x y z) u = .next (m.driveMix op x y z (mfuResult op x y z) (mfuErr op)) := rfl

@[simp] theorem Hardware.step_tbl (sel : BitVec 2) (idx : BitVec 12) (u : RoundState) :
    m.step (.tbl sel idx) u = m.lookup sel idx := rfl

@[simp] theorem Hardware.step_reset (cmd : BitVec 2) (p : EdgePorts) (u : RoundState) :
    m.step (.edge 1#1 cmd p) u = .next (m.resetTo u) := rfl

@[simp] theorem Hardware.step_edge (cmd : BitVec 2) (p : EdgePorts) (u : RoundState) :
    m.step (.edge 0#1 cmd p) u = m.edge cmd p (fun t => t.command cmd p) := rfl

@[simp] theorem Hardware.steps_nil (m : Hardware) : Hardware.steps [] m = .next m := rfl

/-- A sequence whose first drive answers a next state goes on from there. -/
theorem Hardware.steps_cons {d : Drive} {u : RoundState} (rest : List (Drive × RoundState))
    (h : m.step d u = .next n) : Hardware.steps ((d, u) :: rest) m = Hardware.steps rest n := by
  simp [Hardware.steps, h]

/-! A `State` that runs an operation of the hardware. -/

section
variable {s : State} {f : Hardware → Host.Outcome Hardware Fault Refusal}

theorem State.onHardware_of_next (h : f s.toHardware = .next m) :
    s.onHardware f = .next { s with toHardware := m } := by
  simp [State.onHardware, h]

theorem State.onHardware_of_fault {r : Fault} (h : f s.toHardware = .fault r) : s.onHardware f = .fault r := by
  simp [State.onHardware, h]

theorem State.onHardware_of_refused {r : Refusal} (h : f s.toHardware = .refused r) :
    s.onHardware f = .refused r := by
  simp [State.onHardware, h]

/-- Outside RUN a `State` that runs an edge with `rst = 0` comes to what the command gives. -/
theorem State.onHardware_edge_ready {cmd : BitVec 2} {p : EdgePorts} {ready : Hardware → Hardware}
    (h : s.fsm = .idle ∨ s.fsm = .done) :
    s.onHardware (fun m => m.edge cmd p ready) = .next { s with toHardware := ready s.toHardware } :=
  State.onHardware_of_next (Hardware.edge_ready h)

/-- In RUN it comes to the round. -/
theorem State.onHardware_edge_run {cmd : BitVec 2} {p : EdgePorts} {ready : Hardware → Hardware}
    (h : s.fsm = .run) :
    s.onHardware (fun m => m.edge cmd p ready) = .next { s with toHardware := s.applyRound cmd p } :=
  State.onHardware_of_next (Hardware.edge_run h)

/-- With the ROM a `State` that reads it comes to the answer on the ROM port. -/
theorem State.onHardware_lookup_present {sel : BitVec 2} {idx : BitVec 12} (h : s.cfg.hasTables = true) :
    s.onHardware (fun m => m.lookup sel idx) = .next { s with toHardware := s.driveTbl sel idx } :=
  State.onHardware_of_next (Hardware.lookup_present h)

/-- Without the ROM the read is refused by name. -/
theorem State.onHardware_lookup_absent {sel : BitVec 2} {idx : BitVec 12} (h : s.cfg.hasTables = false) :
    s.onHardware (fun m => m.lookup sel idx) = .refused .noTables :=
  State.onHardware_of_refused (Hardware.lookup_absent h)

/-- A `State` comes from running an operation of the hardware to what that operation answers, and no further. -/
theorem State.onHardware_next {t : State} (h : s.onHardware f = .next t) :
    ∃ m, f s.toHardware = .next m ∧ t = { s with toHardware := m } := by
  unfold State.onHardware at h
  split at h <;> simp_all

/-- A ROM read that answers a `State` is one of an instance with the ROM. -/
theorem State.onHardware_lookup_next {sel : BitVec 2} {idx : BitVec 12} {t : State}
    (h : s.onHardware (fun m => m.lookup sel idx) = .next t) :
    s.cfg.hasTables = true ∧ t = { s with toHardware := s.driveTbl sel idx } := by
  obtain ⟨m, hm, rfl⟩ := State.onHardware_next h
  obtain ⟨ht, rfl⟩ := Hardware.lookup_next hm
  exact ⟨ht, rfl⟩

end

/-! Each RCE operation and each ROM read as its shared operation. -/

theorem exec_reset (p : EdgePorts) (s : State) : exec (.reset p) s = .next s.resetEdge := rfl

theorem exec_nop (p : EdgePorts) (s : State) : exec (.nop p) s = s.onHardware (fun m => m.edge cmdNop p (fun t => t)) := rfl

theorem exec_load (p : EdgePorts) (s : State) :
    exec (.load p) s = s.onHardware (fun m => m.edge cmdLoad p (fun t => (t.loadRegs p.cv).enter .idle)) := rfl

theorem exec_start (p : EdgePorts) (s : State) :
    exec (.start p) s = s.onHardware (fun m => m.edge cmdStart p (fun t => t.enter .run)) := rfl

theorem exec_loadstart (p : EdgePorts) (s : State) :
    exec (.loadstart p) s = s.onHardware (fun m => m.edge cmdLoadstart p (fun t => (t.loadRegs p.cv).enter .run)) := rfl

theorem exec_round (cmd : BitVec 2) (p : EdgePorts) (s : State) :
    exec (.round cmd p) s = s.onHardware (fun m => m.edge cmd p (fun t => t.command cmd p)) := rfl

@[simp] theorem ctrAfterRound_last : ctrAfterRound 63#6 = 0 := rfl

@[simp] theorem fsmAfterRound_last : fsmAfterRound 63#6 = .done := rfl

theorem ctrAfterRound_of_ne {c : BitVec 6} (h : c ≠ 63#6) : ctrAfterRound c = c + 1 := by
  simp [ctrAfterRound, h]

theorem fsmAfterRound_of_ne {c : BitVec 6} (h : c ≠ 63#6) : fsmAfterRound c = .run := by
  simp [fsmAfterRound, h]

@[simp] theorem errAfterRound_nop (e : Bool) : errAfterRound e cmdNop = e := rfl

end Sys2Proof.Machine
end

