-- ==== Sys2Proof/Laws/Fetch.lean ====
section
/-!
SUPPORT. What a drive runs, by its port group and, for an edge, by `rst` and the control state: the decoder's
work said once, so that no later proof unfolds it.
-/

namespace Sys2Proof.Machine

variable (s : State)

theorem State.nextDrive_cons (d : Drive) (rest : List Drive) (h : s.host = d :: rest) :
    s.nextDrive = (d, { s with host := rest }) := by
  simp [State.nextDrive, h]

theorem runDrive_mix (op : BitVec 3) (x y z : Word) :
    runDrive (.mix op x y z) s = exec (decodeMix op x y z) s := rfl

theorem runDrive_tbl (sel : BitVec 2) (idx : BitVec 12) :
    runDrive (.tbl sel idx) s = exec (decodeTbl sel idx) s := rfl

/-- `rst = 1` overrides everything (60_exceptions.md R144). -/
theorem runDrive_edge_reset (cmd : BitVec 2) (p : EdgePorts) :
    runDrive (.edge 1#1 cmd p) s = .next s.resetEdge := by
  simp [runDrive, Hardware.portWord, decode, decodeKey_reset, exec, execReset]

/-- Outside RUN an edge with `rst = 0` applies its command. -/
theorem runDrive_edge_ready (cmd : BitVec 2) (p : EdgePorts) (h : s.fsm = .idle ∨ s.fsm = .done) :
    runDrive (.edge 0#1 cmd p) s = .next { s with toHardware := s.command cmd p } := by
  obtain ⟨h0, h1, h2, h3⟩ := decodeKey_ready h p
  rcases cmd_cases cmd with rfl | rfl | rfl | rfl
  · simp [runDrive, Hardware.portWord, decode, h0, exec, execNop, State.onHardware, Hardware.edge_ready h,
      Hardware.command_nop]
  · simp [runDrive, Hardware.portWord, decode, h1, exec, execLoad, State.onHardware, Hardware.edge_ready h,
      Hardware.command_load]
  · simp [runDrive, Hardware.portWord, decode, h2, exec, execStart, State.onHardware, Hardware.edge_ready h,
      Hardware.command_start]
  · simp [runDrive, Hardware.portWord, decode, h3, exec, execLoadstart, State.onHardware, Hardware.edge_ready h,
      Hardware.command_loadstart]

/-- In RUN an edge with `rst = 0` applies a round, whatever its command. -/
theorem runDrive_edge_run (cmd : BitVec 2) (p : EdgePorts) (h : s.fsm = .run) :
    runDrive (.edge 0#1 cmd p) s = .next { s with toHardware := s.applyRound cmd p } := by
  simp [runDrive, Hardware.portWord, decode, h, decodeKey_run, exec, execRound, State.onHardware,
    Hardware.edge_run h]

/-- In `fsm = 11` an edge with `rst = 0` is refused by name. -/
theorem runDrive_edge_unreachable (cmd : BitVec 2) (p : EdgePorts) (h : s.fsm = .unreachable) :
    runDrive (.edge 0#1 cmd p) s = .refused .unreachableFsm := by
  simp [runDrive, Hardware.portWord, decode, h, decodeKey_unreachable, refusalOf]

/-- A drive of the ROM port is a read with its select and index. -/
theorem runDrive_tbl_lookup (sel : BitVec 2) (idx : BitVec 12) :
    runDrive (.tbl sel idx) s = s.onHardware (fun m => m.lookup sel idx) := by
  rw [runDrive_tbl]
  have h : sel = 0#2 ∨ sel = 1#2 ∨ sel = 2#2 ∨ sel = 3#2 := by revert sel; decide
  rcases h with rfl | rfl | rfl | rfl <;> rfl

/-- A drive of the MIX port completes and changes that port alone. -/
theorem runDrive_mix_next (op : BitVec 3) (x y z : Word) :
    ∃ r err, runDrive (.mix op x y z) s = .next { s with toHardware := s.driveMix op x y z r err } := by
  rw [runDrive_mix]
  have h : op = 0#3 ∨ op = 1#3 ∨ op = 2#3 ∨ op = 3#3 ∨ op = 4#3 ∨ op = 5#3 ∨ op = 6#3 ∨ op = 7#3 := by
    revert op; decide
  rcases h with rfl | rfl | rfl | rfl | rfl | rfl | rfl | rfl <;> exact ⟨_, _, rfl⟩

/-- Everything a drive that answers a next state can be. -/
theorem runDrive_next_cases {s t : State} {d : Drive} (h : runDrive d s = .next t) :
    (∃ op x y z r err, d = .mix op x y z ∧
      t = { s with toHardware := s.driveMix op x y z r err }) ∨
    (∃ sel idx, d = .tbl sel idx ∧ s.cfg.hasTables = true ∧
      t = { s with toHardware := s.driveTbl sel idx }) ∨
    (∃ cmd p, d = .edge 1#1 cmd p ∧ t = s.resetEdge) ∨
    (∃ cmd p, d = .edge 0#1 cmd p ∧ s.fsm = .run ∧
      t = { s with toHardware := s.applyRound cmd p }) ∨
    (∃ cmd p, d = .edge 0#1 cmd p ∧ (s.fsm = .idle ∨ s.fsm = .done) ∧
      t = { s with toHardware := s.command cmd p }) := by
  cases d with
  | mix op x y z =>
    obtain ⟨r, err, hm⟩ := runDrive_mix_next s op x y z
    rw [hm] at h
    cases h
    exact .inl ⟨op, x, y, z, r, err, rfl, rfl⟩
  | tbl sel idx =>
    rw [runDrive_tbl_lookup] at h
    obtain ⟨ht, rfl⟩ := State.onHardware_lookup_next h
    exact .inr (.inl ⟨sel, idx, rfl, ht, rfl⟩)
  | edge rst cmd p =>
    have hr : ∀ b : BitVec 1, b = 0#1 ∨ b = 1#1 := by decide
    rcases hr rst with rfl | rfl
    · cases hf : s.fsm with
      | run =>
        rw [runDrive_edge_run s cmd p hf] at h
        cases h
        exact .inr (.inr (.inr (.inl ⟨cmd, p, rfl, rfl, rfl⟩)))
      | unreachable =>
        rw [runDrive_edge_unreachable s cmd p hf] at h
        cases h
      | idle =>
        rw [runDrive_edge_ready s cmd p (.inl hf)] at h
        cases h
        exact .inr (.inr (.inr (.inr ⟨cmd, p, rfl, .inl rfl, rfl⟩)))
      | done =>
        rw [runDrive_edge_ready s cmd p (.inr hf)] at h
        cases h
        exact .inr (.inr (.inr (.inr ⟨cmd, p, rfl, .inr rfl, rfl⟩)))
    · rw [runDrive_edge_reset] at h
      cases h
      exact .inr (.inr (.inl ⟨cmd, p, rfl, rfl⟩))

/-- Taking the next drive changes the host's list and the draw counter alone. -/
theorem State.nextDrive_frame :
    s.nextDrive.2.regs = s.regs ∧ s.nextDrive.2.regsDefined = s.regsDefined ∧ s.nextDrive.2.ctr = s.ctr ∧
    s.nextDrive.2.fsm = s.fsm ∧ s.nextDrive.2.err = s.err ∧ s.nextDrive.2.mix = s.mix ∧
    s.nextDrive.2.tbl = s.tbl ∧ s.nextDrive.2.cfg = s.cfg ∧ s.nextDrive.2.stream = s.stream := by
  cases h : s.host <;> simp [State.nextDrive, h]

/-- The drive a port word placed before a step is the one the step takes. -/
theorem step_of_host {d : Drive} {rest : List Drive} (h : s.host = d :: rest) :
    step s = runDrive d { s with host := rest } := by
  simp [step, State.nextDrive_cons s d rest h]

@[simp] theorem runDrives_nil : runDrives [] s = .next s := rfl

/-- A sequence of drives whose first answers a next state goes on from there. -/
theorem runDrives_cons {t : State} {d : Drive} (ds : List Drive) (h : runDrive d s = .next t) :
    runDrives (d :: ds) s = runDrives ds t := by
  simp [runDrives, h]

end Sys2Proof.Machine
end

