-- ==== Sys2Proof/Laws/Functions.lean ====
section
/-!
SUPPORT. The functions bit by bit: what `rotr` and `shr` do to a bit, and what each mixing function's bit is,
so that later proofs argue about bits and not about shifts.
-/

namespace Sys2Proof.Machine

theorem shr_bit (x : Word) (n i : Nat) : (shr x n).getLsbD i = x.getLsbD (n + i) := by
  simp [shr]

theorem rotr_eq_rotateRight (x : Word) {n : Nat} (h : n < 32) : rotr x n = x.rotateRight n := by
  simp [rotr, BitVec.rotateRight, BitVec.rotateRightAux, Nat.mod_eq_of_lt h]

theorem shr_xor (x y : Word) (n : Nat) : shr (x ^^^ y) n = shr x n ^^^ shr y n := by
  apply BitVec.eq_of_getLsbD_eq
  intro i _
  simp [shr]

theorem rotr_xor (x y : Word) (n : Nat) : rotr (x ^^^ y) n = rotr x n ^^^ rotr y n := by
  apply BitVec.eq_of_getLsbD_eq
  intro i hi
  simp only [rotr, BitVec.getLsbD_or, BitVec.getLsbD_xor, BitVec.getLsbD_ushiftRight,
    BitVec.getLsbD_shiftLeft]
  by_cases h : i < 32 - n
  · simp [h]
  · have hx : x.getLsbD (n + i) = false := BitVec.getLsbD_of_ge x _ (by omega)
    have hy : y.getLsbD (n + i) = false := BitVec.getLsbD_of_ge y _ (by omega)
    simp [h, hx, hy, hi]

theorem ch_bit (e f g : Word) (i : Nat) (h : i < 32) :
    (ch e f g).getLsbD i = if e.getLsbD i then f.getLsbD i else g.getLsbD i := by
  simp only [ch, BitVec.getLsbD_xor, BitVec.getLsbD_and, BitVec.getLsbD_not]
  cases e.getLsbD i <;> simp [h]

theorem maj_bit (a b c : Word) (i : Nat) :
    (maj a b c).getLsbD i =
      ((a.getLsbD i && b.getLsbD i) ^^ (a.getLsbD i && c.getLsbD i) ^^ (b.getLsbD i && c.getLsbD i)) := by
  simp [maj]

/-- A ROM read at `sel ‖ idx` is the selected function of the widened index (20_memory.md R48). -/
theorem romRead_romAddr (sel : BitVec 2) (idx : BitVec 12) :
    romRead (romAddr sel idx) =
      if sel = 0b00#2 then bsig0 (zext32 idx)
      else if sel = 0b01#2 then bsig1 (zext32 idx)
      else if sel = 0b10#2 then ssig0 (zext32 idx)
      else ssig1 (zext32 idx) := by
  have hs : (romAddr sel idx).extractLsb' 12 2 = sel := by
    apply BitVec.eq_of_getLsbD_eq
    intro i hi
    rw [BitVec.getLsbD_extractLsb', romAddr, BitVec.getLsbD_append]
    simp [hi]
  have hi : (romAddr sel idx).extractLsb' 0 12 = idx := by
    apply BitVec.eq_of_getLsbD_eq
    intro i hi
    rw [BitVec.getLsbD_extractLsb', romAddr, BitVec.getLsbD_append]
    simp [hi]
  simp only [romRead, hs, hi]

theorem roundFn_zero : roundFn RoundState.zero 0 0 = RoundState.zero := by decide

@[simp] theorem rounds_nil (s : RoundState) : rounds s [] = s := rfl

@[simp] theorem rounds_cons (s : RoundState) (kw : Word × Word) (rest : List (Word × Word)) :
    rounds s (kw :: rest) = rounds (roundFn s kw.1 kw.2) rest := rfl

end Sys2Proof.Machine
end

