-- ==== Sys2Proof/Laws/Instances.lean ====
section
/-!
SUPPORT. What the copies of a system start with.
-/

namespace Sys2Proof.Machine

/-- A copy starts as reset leaves a core, but for its stream. -/
@[simp] theorem System.reset_get {n : Nat} (j : Fin n) :
    (System.reset n).get j = { State.reset with stream := j.val } := by
  simp only [System.reset, Vector.get, Vector.toArray_ofFn, Array.getElem_ofFn]
  rfl

/-- No two copies start on one stream of free values (log 20). -/
theorem System.reset_stream_injective {n : Nat} {i j : Fin n}
    (h : ((System.reset n).get i).stream = ((System.reset n).get j).stream) : i = j := by
  simpa [Fin.ext_iff] using h

end Sys2Proof.Machine
end

