-- ==== Sys2Proof/Laws/PerInstr.lean ====
section
/-!
SUPPORT. Per operation: its encoding lies in its own row of spec/opcode_table.json. The rows are written here
as the table has them ("match", "mask"), so this holds the encoder against the table and not against the
decoder's rows.
-/

namespace Sys2Proof.Laws.Rows

/-- The row's match and mask in spec/opcode_table.json. -/
def tableRow : Instr → Nat × Nat
  | .mixBsig0 _ _ _ => (0b000, 0b111)
  | .mixBsig1 _ _ _ => (0b001, 0b111)
  | .mixSsig0 _ _ _ => (0b010, 0b111)
  | .mixSsig1 _ _ _ => (0b011, 0b111)
  | .mixCh _ _ _ => (0b100, 0b111)
  | .mixMaj _ _ _ => (0b101, 0b111)
  | .mixReserved _ _ _ _ => (0b110, 0b110)
  | .tblBsig0 _ => (0b00, 0b11)
  | .tblBsig1 _ => (0b01, 0b11)
  | .tblSsig0 _ => (0b10, 0b11)
  | .tblSsig1 _ => (0b11, 0b11)
  | .reset _ => (0b10000, 0b10000)
  | .nop _ => (0b00000, 0b10111)
  | .load _ => (0b00001, 0b10111)
  | .start _ => (0b00010, 0b10111)
  | .loadstart _ => (0b00011, 0b10111)
  | .round _ _ => (0b00100, 0b11100)

/-- The select or key of an encoded operation, as a number. -/
def selectOf : PortWord → Nat
  | .mixop op _ _ _ => op.toNat
  | .tblsel sel _ => sel.toNat
  | .rcekey key _ => key.toNat

/-- The operation's encoding matches its row of the table. -/
def Statement (i : Instr) : Prop := selectOf (encode i) &&& (tableRow i).2 = (tableRow i).1

theorem mixBsig0 (x y z : Word) : Statement (.mixBsig0 x y z) := by
  show (0b000 &&& 0b111 : Nat) = 0b000; decide
theorem mixBsig1 (x y z : Word) : Statement (.mixBsig1 x y z) := by
  show (0b001 &&& 0b111 : Nat) = 0b001; decide
theorem mixSsig0 (x y z : Word) : Statement (.mixSsig0 x y z) := by
  show (0b010 &&& 0b111 : Nat) = 0b010; decide
theorem mixSsig1 (x y z : Word) : Statement (.mixSsig1 x y z) := by
  show (0b011 &&& 0b111 : Nat) = 0b011; decide
theorem mixCh (x y z : Word) : Statement (.mixCh x y z) := by
  show (0b100 &&& 0b111 : Nat) = 0b100; decide
theorem mixMaj (x y z : Word) : Statement (.mixMaj x y z) := by
  show (0b101 &&& 0b111 : Nat) = 0b101; decide
theorem mixReserved (low : BitVec 1) (x y z : Word) : Statement (.mixReserved low x y z) := by
  have h : low = 0#1 ∨ low = 1#1 := by revert low; decide
  rcases h with rfl | rfl
  · show (0b110 &&& 0b110 : Nat) = 0b110; decide
  · show (0b111 &&& 0b110 : Nat) = 0b110; decide
theorem tblBsig0 (idx : BitVec 12) : Statement (.tblBsig0 idx) := by
  show (0b00 &&& 0b11 : Nat) = 0b00; decide
theorem tblBsig1 (idx : BitVec 12) : Statement (.tblBsig1 idx) := by
  show (0b01 &&& 0b11 : Nat) = 0b01; decide
theorem tblSsig0 (idx : BitVec 12) : Statement (.tblSsig0 idx) := by
  show (0b10 &&& 0b11 : Nat) = 0b10; decide
theorem tblSsig1 (idx : BitVec 12) : Statement (.tblSsig1 idx) := by
  show (0b11 &&& 0b11 : Nat) = 0b11; decide
theorem reset (p : EdgePorts) : Statement (.reset p) := by
  show (0b10000 &&& 0b10000 : Nat) = 0b10000; decide
theorem nop (p : EdgePorts) : Statement (.nop p) := by
  show (0b00000 &&& 0b10111 : Nat) = 0b00000; decide
theorem load (p : EdgePorts) : Statement (.load p) := by
  show (0b00001 &&& 0b10111 : Nat) = 0b00001; decide
theorem start (p : EdgePorts) : Statement (.start p) := by
  show (0b00010 &&& 0b10111 : Nat) = 0b00010; decide
theorem loadstart (p : EdgePorts) : Statement (.loadstart p) := by
  show (0b00011 &&& 0b10111 : Nat) = 0b00011; decide
theorem round (cmd : BitVec 2) (p : EdgePorts) : Statement (.round cmd p) := by
  have h : cmd = 0#2 ∨ cmd = 1#2 ∨ cmd = 2#2 ∨ cmd = 3#2 := by revert cmd; decide
  rcases h with rfl | rfl | rfl | rfl
  · show (0b00100 &&& 0b11100 : Nat) = 0b00100; decide
  · show (0b00101 &&& 0b11100 : Nat) = 0b00100; decide
  · show (0b00110 &&& 0b11100 : Nat) = 0b00100; decide
  · show (0b00111 &&& 0b11100 : Nat) = 0b00100; decide

end Sys2Proof.Laws.Rows
end

