-- ==== Sys2Proof/Laws/Run.lean ====
section
/-!
SUPPORT. A run one step at a time, and what the checked step is where it does not fault.
-/

namespace Sys2Proof.Machine

theorem run_zero (s : State) : run 0 s = .next s := rfl

/-- A run whose first step answers a next state goes on from there. -/
theorem run_succ {s t : State} (k : Nat) (h : step s = .next t) : run (k + 1) s = run k t := by
  have hs : Sys2Proof.core.step s = .next t := h
  simp only [run, Host.Core.run, hs]
  rfl

/-- A run whose first step faults ends in that fault. -/
theorem run_fault {s : State} {r : Fault} (k : Nat) (h : step s = .fault r) : run (k + 1) s = .fault r := by
  have hs : Sys2Proof.core.step s = .fault r := h
  simp only [run, Host.Core.run, hs]
  rfl

/-- A run whose first step is refused ends in that refusal. -/
theorem run_refused {s : State} {r : Refusal} (k : Nat) (h : step s = .refused r) : run (k + 1) s = .refused r := by
  have hs : Sys2Proof.core.step s = .refused r := h
  simp only [run, Host.Core.run, hs]
  rfl

/-- A run whose list begins with a drive goes on from what the drive leaves. -/
theorem run_cons {s t : State} {d : Drive} {rest : List Drive} (k : Nat) (h : s.host = d :: rest)
    (hd : runDrive d { s with host := rest } = .next t) : run (k + 1) s = run k t :=
  run_succ k (by rw [step_of_host s h, hd])

/-- With a value in a..h the checked step is the step. -/
theorem checkedStep_defined {s : State} (h : s.regsDefined = true) : checkedStep s = step s := by
  simp [checkedStep, h]

/-- A checked step that answers a next state is the step. -/
theorem step_of_checkedStep {s t : State} (h : checkedStep s = .next t) : step s = .next t := by
  unfold checkedStep at h
  split at h
  · cases h
  · exact h

end Sys2Proof.Machine
end

