-- ==== Sys2Proof/Tests/Slice0.lean ====
section
/-!
SUPPORT. Tests of one step each, with expected values from 95_test_vectors.md and the examples of the rules,
and one witness theorem for each statement of Certificates/Slice0/Obligations.lean that has hypotheses.
-/

namespace Sys2Proof.Tests

open Sys2Proof.Machine Sys2Proof.Safety

/-- The SHA-256 initial value, a..h in order (95_test_vectors.md L3.6). -/
def iv : RoundState :=
  { a := 0x6a09e667#32, b := 0xbb67ae85#32, c := 0x3c6ef372#32, d := 0xa54ff53a#32
    e := 0x510e527f#32, f := 0x9b05688c#32, g := 0x1f83d9ab#32, h := 0x5be0cd19#32 }

/-- The same on the 256-bit bus. -/
def ivBus : CvBus := 0x6a09e667bb67ae853c6ef372a54ff53a510e527f9b05688c1f83d9ab5be0cd19#256

/-- A state with the initial value in a..h and the control given. -/
def at_ (fsm : Fsm) (ctr : BitVec 6) (err : Bool) : State :=
  { State.reset with regs := iv, regsDefined := true, fsm := fsm, ctr := ctr, err := err }

/-- An instance without the table ROM. -/
def noRom : State := { State.reset with cfg := { hasTables := false } }

/-- Edge inputs with a chaining value and words. -/
def ports : EdgePorts := { cv := ivBus, k := 0x428a2f98#32, w := 0x61626380#32 }

/-! ## Well-formedness: the one check, accepted and refused -/

theorem test_wf_tblBsig0 : Instr.wf ⟨false⟩ (.tblBsig0 1) = false ∧ Instr.wf ⟨true⟩ (.tblBsig0 1) = true := by decide
theorem test_wf_tblBsig1 : Instr.wf ⟨false⟩ (.tblBsig1 1) = false ∧ Instr.wf ⟨true⟩ (.tblBsig1 1) = true := by decide
theorem test_wf_tblSsig0 : Instr.wf ⟨false⟩ (.tblSsig0 1) = false ∧ Instr.wf ⟨true⟩ (.tblSsig0 1) = true := by decide
theorem test_wf_tblSsig1 : Instr.wf ⟨false⟩ (.tblSsig1 1) = false ∧ Instr.wf ⟨true⟩ (.tblSsig1 1) = true := by decide
theorem test_wf_others : Instr.wf ⟨false⟩ (.mixReserved 1 0 0 0) = true ∧ Instr.wf ⟨false⟩ (.round 3 ports) = true := by decide

/-! ## Decoding of words written out from 30_encoding.md R64, R65 and R67 -/

theorem test_decode_mix_bsig0 : decode (.mixop 0b000#3 1 2 3) = .ok (.mixBsig0 1 2 3) := by rfl
theorem test_decode_mix_bsig1 : decode (.mixop 0b001#3 1 2 3) = .ok (.mixBsig1 1 2 3) := by rfl
theorem test_decode_mix_ssig0 : decode (.mixop 0b010#3 1 2 3) = .ok (.mixSsig0 1 2 3) := by rfl
theorem test_decode_mix_ssig1 : decode (.mixop 0b011#3 1 2 3) = .ok (.mixSsig1 1 2 3) := by rfl
theorem test_decode_mix_ch : decode (.mixop 0b100#3 1 2 3) = .ok (.mixCh 1 2 3) := by rfl
theorem test_decode_mix_maj : decode (.mixop 0b101#3 1 2 3) = .ok (.mixMaj 1 2 3) := by rfl
theorem test_decode_mix_reserved : decode (.mixop 0b110#3 1 2 3) = .ok (.mixReserved 0 1 2 3) ∧
    decode (.mixop 0b111#3 1 2 3) = .ok (.mixReserved 1 1 2 3) := ⟨rfl, rfl⟩
theorem test_decode_tbl : decode (.tblsel 0b00#2 5) = .ok (.tblBsig0 5) ∧ decode (.tblsel 0b01#2 5) = .ok (.tblBsig1 5) ∧
    decode (.tblsel 0b10#2 5) = .ok (.tblSsig0 5) ∧ decode (.tblsel 0b11#2 5) = .ok (.tblSsig1 5) := ⟨rfl, rfl, rfl, rfl⟩
theorem test_decode_reset : decode (.rcekey 0b10000#5 ports) = .ok (.reset ports) ∧
    decode (.rcekey 0b11111#5 ports) = .ok (.reset ports) := ⟨rfl, rfl⟩
theorem test_decode_nop : decode (.rcekey 0b00000#5 ports) = .ok (.nop ports) ∧
    decode (.rcekey 0b01000#5 ports) = .ok (.nop ports) := ⟨rfl, rfl⟩
theorem test_decode_load : decode (.rcekey 0b00001#5 ports) = .ok (.load ports) ∧
    decode (.rcekey 0b01001#5 ports) = .ok (.load ports) := ⟨rfl, rfl⟩
theorem test_decode_start : decode (.rcekey 0b00010#5 ports) = .ok (.start ports) ∧
    decode (.rcekey 0b01010#5 ports) = .ok (.start ports) := ⟨rfl, rfl⟩
theorem test_decode_loadstart : decode (.rcekey 0b00011#5 ports) = .ok (.loadstart ports) ∧
    decode (.rcekey 0b01011#5 ports) = .ok (.loadstart ports) := ⟨rfl, rfl⟩
theorem test_decode_round : decode (.rcekey 0b00100#5 ports) = .ok (.round 0 ports) ∧
    decode (.rcekey 0b00111#5 ports) = .ok (.round 3 ports) := ⟨rfl, rfl⟩
theorem test_decode_unreachable : decode (.rcekey 0b01100#5 ports) = .error .unreachableFsm ∧
    decode (.rcekey 0b01111#5 ports) = .error .unreachableFsm := ⟨rfl, rfl⟩

/-! ## Table words, and a word placed where the first step after reset takes its operation -/

theorem test_table_word_forms : decodeTableWord 3 0b011 = some (.mixSsig1 0 0 0) ∧
    decodeTableWord 2 0b11 = some (.tblSsig1 0) ∧ decodeTableWord 5 0b00011 = some (.loadstart EdgePorts.zero) ∧
    decodeTableWord 5 0b01100 = none := ⟨rfl, rfl, rfl, rfl⟩
theorem test_first_step_mix : step (State.reset.withFetchWord 3 0b110) =
    .next { State.reset with mix := { op := 0b110#3, x := 0, y := 0, z := 0, r := 0, err := true } } := by rfl
theorem test_first_step_tbl : step (State.reset.withFetchWord 2 0b11) =
    .next { State.reset with tbl := { sel := 0b11#2, idx := 0, q := 0 } } := by rfl
theorem test_first_step_rce : step (State.reset.withFetchWord 5 0b00011) =
    .next { State.reset with regsDefined := true, fsm := .run } := by rfl

/-! ## MIX: the row x = 0x12345678 of L2.2, rows of L2.3, the first row of L2.4 -/

theorem test_mix_bsig0 : ∃ t, exec (.mixBsig0 0x12345678#32 0 0) State.reset = .next t ∧ t.mixR = 0x66146474#32 ∧
    t.mixErr = false := ⟨_, rfl, by decide, by decide⟩
theorem test_mix_bsig1 : ∃ t, exec (.mixBsig1 0x12345678#32 0 0) State.reset = .next t ∧ t.mixR = 0x3561abda#32 ∧
    t.mixErr = false := ⟨_, rfl, by decide, by decide⟩
theorem test_mix_ssig0 : ∃ t, exec (.mixSsig0 0x12345678#32 0 0) State.reset = .next t ∧ t.mixR = 0xe7fce6ee#32 ∧
    t.mixErr = false := ⟨_, rfl, by decide, by decide⟩
theorem test_mix_ssig1 : ∃ t, exec (.mixSsig1 0x12345678#32 0 0) State.reset = .next t ∧ t.mixR = 0xa1f78649#32 ∧
    t.mixErr = false := ⟨_, rfl, by decide, by decide⟩
theorem test_mix_ch : ∃ t, exec (.mixCh 0x510e527f#32 0x9b05688c#32 0x1f83d9ab#32) State.reset = .next t ∧
    t.mixR = 0x1f85c98c#32 ∧ t.mixErr = false := ⟨_, rfl, by decide, by decide⟩
theorem test_mix_maj : ∃ t, exec (.mixMaj 0x510e527f#32 0x9b05688c#32 0x1f83d9ab#32) State.reset = .next t ∧
    t.mixR = 0x1b0758af#32 ∧ t.mixErr = false := ⟨_, rfl, by decide, by decide⟩
theorem test_mix_reserved : ∃ t, exec (.mixReserved 0 0x12345678#32 0 0) State.reset = .next t ∧
    t.mixR = 0x00000000#32 ∧ t.mixErr = true := ⟨_, rfl, by decide, by decide⟩

/-! ## TBL: the rows idx = 0xabc and idx = 0x800 of L2.5; the refusal of R107 -/

theorem test_tbl_bsig0 : ∃ t, exec (.tblBsig0 0xabc#12) State.reset = .next t ∧ t.tblQ = some 0x55caf2af#32 := ⟨_, rfl, by decide⟩
theorem test_tbl_bsig1 : ∃ t, exec (.tblBsig1 0xabc#12) State.reset = .next t ∧ t.tblQ = some 0xa7855e2b#32 := ⟨_, rfl, by decide⟩
theorem test_tbl_ssig0 : ∃ t, exec (.tblSsig0 0xabc#12) State.reset = .next t ∧ t.tblQ = some 0x7aaf0142#32 := ⟨_, rfl, by decide⟩
theorem test_tbl_ssig1 : ∃ t, exec (.tblSsig1 0x800#12) State.reset = .next t ∧ t.tblQ = some 0x05000002#32 := ⟨_, rfl, by decide⟩
theorem test_tbl_absent : exec (.tblBsig0 0xabc#12) noRom = .refused .noTables := by rfl

/-! ## RCE: rows of L2.6 and L2.7 -/

theorem test_reset_during_run : ∃ t, runDrive (.edge 1#1 0b01#2 ports) (at_ .run 17 false) = .next t ∧
    t.fsm = .idle ∧ t.ctr = 0 ∧ t.err = false ∧ t.regsDefined = false := ⟨_, rfl, rfl, rfl, rfl, rfl⟩
theorem test_reset_clears_err : ∃ t, exec (.reset ports) (at_ .done 0 true) = .next t ∧ t.fsm = .idle ∧ t.err = false :=
  ⟨_, rfl, rfl, rfl⟩
theorem test_nop_in_done : exec (.nop ports) (at_ .done 0 false) = .next (at_ .done 0 false) := by rfl
theorem test_load_keeps_err : ∃ t, exec (.load ports) { at_ .done 0 true with regs := RoundState.zero } = .next t ∧
    t.fsm = .idle ∧ t.err = true ∧ t.regs = iv := ⟨_, rfl, rfl, rfl, by decide⟩
theorem test_start_in_done : exec (.start ports) (at_ .done 0 false) = .next (at_ .run 0 false) := by rfl
theorem test_loadstart_in_idle : ∃ t, exec (.loadstart ports) State.reset = .next t ∧
    t.fsm = .run ∧ t.ctr = 0 ∧ t.regs = iv := ⟨_, rfl, rfl, rfl, by decide⟩
theorem test_round_zero_of_abc : ∃ t, exec (.round 0 ports) (at_ .run 0 false) = .next t ∧ t.ctr = 1 ∧
    t.regs.a = 0x5d6aebcd#32 ∧ t.regs.e = 0xfa2a4622#32 ∧ t.regs.h = 0x1f83d9ab#32 :=
  ⟨_, rfl, by decide, by decide, by decide, by decide⟩
theorem test_last_round_with_command : ∃ t, exec (.round 0b10#2 ports) (at_ .run 63 false) = .next t ∧
    t.fsm = .done ∧ t.ctr = 0 ∧ t.err = true := ⟨_, rfl, by decide, by decide, by decide⟩
theorem test_load_in_run_is_ignored : ∃ t, exec (.load ports) (at_ .run 9 false) = .next t ∧ t.ctr = 10 ∧ t.err = true ∧
    t.regs.b = 0x6a09e667#32 := ⟨_, rfl, by decide, by decide, by decide⟩
theorem test_checked_round_without_a_value :
    checkedStep { State.reset with fsm := .run, host := [Trace.nop 0 0] } = .fault (.uninitRead .a) := by rfl

/-! ## Witnesses: the hypotheses of each statement, met by concrete states and operands -/

theorem witness_EncodeOfDecodeKeepsTheFixedBits :
    decode (.mixop 0b111#3 1 2 3) = .ok (.mixReserved 1 1 2 3) ∧ decode (.tblsel 0b11#2 0xfff#12) = .ok (.tblSsig1 0xfff#12) ∧
    decode (.rcekey 0b01010#5 ports) = .ok (.start ports) ∧ keyRst 0b01010#5 = 0#1 ∧
    decode (.rcekey 0b11111#5 ports) = .ok (.reset ports) := ⟨rfl, rfl, rfl, by decide, rfl⟩

/-- Each row's hypothesis at the smallest and the largest key it covers, and no key under two rows. -/
theorem witness_RceKeyDecodesByTheRowTable :
    0b10000#5 &&& 0b10000#5 = 0b10000#5 ∧ 0b11111#5 &&& 0b10000#5 = 0b10000#5 ∧
    0b01000#5 &&& 0b10111#5 = 0b00000#5 ∧ 0b01001#5 &&& 0b10111#5 = 0b00001#5 ∧
    0b01010#5 &&& 0b10111#5 = 0b00010#5 ∧ 0b01011#5 &&& 0b10111#5 = 0b00011#5 ∧
    0b00111#5 &&& 0b11100#5 = 0b00100#5 ∧ 0b01100#5 &&& 0b11100#5 = 0b01100#5 ∧
    0b01100#5 &&& 0b10111#5 ≠ 0b00000#5 ∧ (at_ .idle 0 false).fsm = .idle ∧ (at_ .run 63 true).fsm = .run ∧
    (at_ .done 0 true).fsm = .done ∧ (at_ .unreachable 0 false).fsm = .unreachable ∧ 0b11#2 ≠ 0b00#2 := by decide

theorem witness_has_tables : State.reset.cfg.hasTables = true ∧ (at_ .run 63 true).cfg.hasTables = true := by decide
theorem witness_TblSelectUsesTheMixCode : State.reset.cfg.hasTables = true := witness_has_tables.1
theorem witness_TblBsig0FollowsItsRule : State.reset.cfg.hasTables = true := witness_has_tables.1
theorem witness_TblBsig1FollowsItsRule : State.reset.cfg.hasTables = true := witness_has_tables.1
theorem witness_TblSsig0FollowsItsRule : State.reset.cfg.hasTables = true := witness_has_tables.1
theorem witness_TblSsig1FollowsItsRule : State.reset.cfg.hasTables = true := witness_has_tables.1
theorem witness_TableAndFormulaAgree : State.reset.cfg.hasTables = true := witness_has_tables.1
theorem witness_WithoutTheRomOnlyTblGoes : noRom.cfg.hasTables = false ∧ Instr.wf noRom.cfg (.nop ports) = true ∧
    Instr.wf noRom.cfg (.mixMaj 1 2 3) = true := by decide

theorem witness_RotrMovesEveryBit : 0 < 1 ∧ 1 < 32 ∧ 0 < 31 ∧ 31 < 32 ∧ 2 ∈ Config.rotationAmounts ∧
    25 ∈ Config.rotationAmounts := by decide
theorem witness_ShrFillsWithZero : (31 : Nat) < 32 ∧ (0 : Nat) < 32 := by decide
theorem witness_MixingFunctionLaws : 0 < 31 ∧ 31 < 32 ∧ 0 < 1 ∧ 1 < 32 ∧ (31 + 1) % 32 = 0 ∧ (2 + 13) % 32 ≠ 0 := by decide
theorem witness_MixChFollowsItsRule : (31 : Nat) < 32 := by decide
/-- After a reserved select, a defined select (101, the last one) and a reserved one. -/
theorem witness_MixReservedFollowsItsRule : ∃ t, exec (.mixReserved 1 1 2 3) State.reset = .next t ∧
    (∃ u, runDrive (.mix 0b101#3 1 2 3) t = .next u ∧ u.mixErr = false) ∧
    ∃ u, runDrive (.mix 0b110#3 1 2 3) t = .next u ∧ u.mixErr = true := ⟨_, rfl, ⟨_, rfl, by decide⟩, _, rfl, by decide⟩

/-- The four ranges of the ROM at both of their ends. -/
theorem witness_RomAddressMap : (0x0000#14).toNat ≤ 0x0fff ∧ (0x0fff#14).toNat ≤ 0x0fff ∧
    (0x1000 ≤ (0x1000#14).toNat ∧ (0x1000#14).toNat ≤ 0x1fff) ∧ (0x1000 ≤ (0x1fff#14).toNat ∧ (0x1fff#14).toNat ≤ 0x1fff) ∧
    (0x2000 ≤ (0x2000#14).toNat ∧ (0x2000#14).toNat ≤ 0x2fff) ∧ (0x2000 ≤ (0x2fff#14).toNat ∧ (0x2fff#14).toNat ≤ 0x2fff) ∧
    0x3000 ≤ (0x3000#14).toNat ∧ 0x3000 ≤ (0x3fff#14).toNat ∧ State.reset.cfg.hasTables = true := by decide

/-- A state that is ready for a command: in IDLE as reset leaves it, and in DONE. -/
theorem witness_ready : State.reset.fsm = .idle ∧ (at_ .done 0 true).fsm = .done := by decide
theorem witness_NopHolds : State.reset.fsm = .idle ∧ (at_ .done 0 true).fsm = .done := witness_ready
theorem witness_LoadFollowsItsRule : State.reset.fsm = .idle ∧ (at_ .done 0 true).fsm = .done ∧
    ports.cv = 0x6a09e667bb67ae853c6ef372a54ff53a510e527f9b05688c1f83d9ab5be0cd19#256 := by decide
theorem witness_StartFollowsItsRule : State.reset.fsm = .idle ∧ State.reset.regsDefined = false ∧
    ∃ t, exec (.start ports) State.reset = .next t := ⟨rfl, rfl, _, rfl⟩
theorem witness_LoadstartFollowsItsRule : State.reset.fsm = .idle ∧ (at_ .done 0 true).fsm = .done := witness_ready
theorem witness_RoundOutsideRunIsTheCommand : State.reset.fsm = .idle ∧ (at_ .done 0 true).fsm = .done := witness_ready

theorem witness_RoundFollowsItsRule_plain : (at_ .run 62 false).fsm = .run ∧ (at_ .run 62 false).ctr ≠ 63#6 ∧
    (at_ .run 63 true).fsm = .run ∧ (at_ .run 63 true).ctr = 63#6 := by decide
theorem witness_RoundFollowsItsRule_no_value : { State.reset with fsm := .run, host := [Trace.nop 1 2] }.regsDefined = false ∧
    { State.reset with fsm := .run, host := [Trace.nop 1 2] }.host = .edge 0#1 cmdNop { cv := 0, k := 1, w := 2 } :: [] :=
  ⟨rfl, rfl⟩
theorem witness_RoundFollowsItsRule_example : (at_ .run 0 false).fsm = .run ∧ (at_ .run 0 false).ctr = 0 ∧
    (at_ .run 0 false).regs = { a := 0x6a09e667#32, b := 0xbb67ae85#32, c := 0x3c6ef372#32, d := 0xa54ff53a#32, e := 0x510e527f#32, f := 0x9b05688c#32, g := 0x1f83d9ab#32, h := 0x5be0cd19#32 } ∧
    ports.k = 0x428a2f98#32 ∧ ports.w = 0x61626380#32 := by decide

theorem witness_UnreachableFsmIsRefusedByName : (at_ .unreachable 0 false).fsm = .unreachable := by decide

theorem witness_StepRunsTheDecodedDrive :
    (let s := { State.reset with host := [Trace.start] }
     s.host = Trace.start :: [] ∧ decode (s.portWord Trace.start) = .ok (.start EdgePorts.zero)) ∧
    (let s := { at_ .unreachable 0 false with host := [Trace.start] }
     s.host = Trace.start :: [] ∧ decode (s.portWord Trace.start) = .error .unreachableFsm) ∧
    State.reset.host = [] := ⟨⟨rfl, rfl⟩, ⟨rfl, rfl⟩, rfl⟩

theorem witness_EdgeStepIsOneOperation : { State.reset with host := [Trace.rst] }.host = .edge 1#1 cmdNop EdgePorts.zero :: [] ∧
    (∀ rst cmd p, Drive.mix 0 1 2 3 ≠ .edge rst cmd p) ∧
    ∃ t, step { State.reset with host := [.mix 0 1 2 3] } = .next t := ⟨rfl, fun _ _ _ h => (by cases h), _, rfl⟩

theorem witness_FsmTransitionTable : State.reset.fsm = .idle ∧ StateInv State.reset ∧ (at_ .done 0 true).fsm = .done ∧
    StateInv (at_ .done 0 true) ∧ (at_ .run 62 false).fsm = .run ∧ (at_ .run 62 false).ctr.toNat < 63 ∧
    (at_ .run 63 false).fsm = .run ∧ (at_ .run 63 false).ctr.toNat = 63 := by decide

/-- The refusals, and a state of the invariant with the ROM. -/
theorem witness_StepIsTotal :
    step { at_ .unreachable 0 false with host := [Trace.start] } = .refused .unreachableFsm ∧
    step { noRom with host := [.tbl 1 2] } = .refused .noTables ∧
    StateInv (at_ .run 63 true) ∧ (at_ .run 63 true).cfg.hasTables = true := ⟨rfl, rfl, by decide, rfl⟩

theorem witness_EveryStepKeepsTheInvariant : StateInv { at_ .run 63 false with host := [Trace.nop 1 2] } ∧
    ∃ t, step { at_ .run 63 false with host := [Trace.nop 1 2] } = .next t ∧ t.fsm = .done := ⟨by decide, _, rfl, by decide⟩

theorem witness_RoundIdxIsZeroWhenNotBusy : StateInv { at_ .run 63 false with host := [Trace.nop 1 2] } ∧
    State.reset.busy = false ∧ StateInv State.reset ∧
    ∃ t, step { at_ .run 63 false with host := [Trace.nop 1 2] } = .next t ∧ t.busy = false :=
  ⟨by decide, by decide, by decide, _, rfl, by decide⟩

/-- Each kind of drive completes in some state. -/
theorem witness_ErrIsStickyAndUnread : (∃ t, runDrive (.edge 0#1 0b01#2 ports) (at_ .run 9 false) = .next t) ∧
    (∃ t, runDrive (.edge 1#1 0b01#2 ports) (at_ .run 9 true) = .next t) ∧ (∃ t, runDrive (.tbl 1 2) State.reset = .next t) ∧
    ∃ t, runDrive (.mix 1 2 3 4) State.reset = .next t := ⟨⟨_, rfl⟩, ⟨_, rfl⟩, ⟨_, rfl⟩, ⟨_, rfl⟩⟩

theorem witness_CommandWhileBusyOnlySetsErr : (at_ .run 63 false).busy = true ∧ 0b11#2 ≠ 0b00#2 ∧
    (at_ .done 0 true).err = true ∧ isReset (.edge 0#1 0b01#2 ports) = false ∧
    (∃ t, runDrive (.edge 0#1 0b01#2 ports) (at_ .done 0 true) = .next t) ∧
    keepsCommandRule State.reset (.edge 0#1 0b01#2 ports) = true ∧ State.reset.err = false ∧
    ∃ t, runDrive (.edge 0#1 0b01#2 ports) State.reset = .next t :=
  ⟨by decide, by decide, rfl, by decide, ⟨_, rfl⟩, by decide, rfl, _, rfl⟩

theorem witness_DoneStaysUntilCommandOrReset : (at_ .done 0 true).done = true ∧
    (∃ t, runDrive (.edge 0#1 0b00#2 ports) (at_ .done 0 true) = .next t ∧ t.done = true) ∧
    (∃ t, runDrive (.edge 0#1 0b10#2 ports) (at_ .done 0 true) = .next t ∧ t.done = false) ∧
    ∃ t, runDrive (.edge 1#1 0b00#2 ports) (at_ .done 0 true) = .next t ∧ t.done = false :=
  ⟨by decide, ⟨_, rfl, by decide⟩, ⟨_, rfl, by decide⟩, _, rfl, by decide⟩

theorem witness_WhatWritesTheRegisterFile :
    (∃ t, runDrive (.edge 0#1 0b01#2 ports) State.reset = .next t ∧ t.regs ≠ State.reset.regs) ∧
    ∃ t, runDrive (.edge 0#1 0b00#2 ports) (at_ .run 63 false) = .next t ∧ t.regs ≠ (at_ .run 63 false).regs :=
  ⟨⟨_, rfl, by decide⟩, _, rfl, by decide⟩

theorem witness_WindowWithoutAValue : ∃ t, runDrive (.edge 0#1 0b11#2 ports) State.reset = .next t ∧
    t.regsDefined = true := ⟨_, rfl, by decide⟩

theorem witness_UnsampledInputsDoNotMatter : State.reset.fsm = .idle ∧ (at_ .done 0 true).fsm = .done ∧
    ports.cv = { ports with k := 1, w := 2 }.cv ∧ (at_ .run 0 true).fsm = .run ∧
    ports.k = { ports with cv := 0 }.k ∧ ports.w = { ports with cv := 0 }.w := by decide

/-- Two different states that hold the same RCE, and an edge that completes. -/
theorem witness_PortsAndRceAreIndependent :
    SameRce (at_ .run 5 false) { at_ .run 5 false with toHardware := ((at_ .run 5 false).driveMix 6 1 2 3 0 true).driveTbl 1 7 } ∧
    at_ .run 5 false ≠ { at_ .run 5 false with toHardware := ((at_ .run 5 false).driveMix 6 1 2 3 0 true).driveTbl 1 7 } ∧
    (∃ t, runDrive (.edge 0#1 0b00#2 ports) (at_ .run 5 false) = .next t) ∧
    (∃ t, runDrive (.mix 1 2 3 4) (at_ .run 5 false) = .next t) ∧ (∃ t, runDrive (.tbl 1 2) (at_ .run 5 false) = .next t) ∧
    (at_ .run 5 false).cfg.hasTables = true := ⟨by decide, by decide, ⟨_, rfl⟩, ⟨_, rfl⟩, ⟨_, rfl⟩, rfl⟩

theorem witness_ControlIgnoresData : SameControl (at_ .run 63 true) { at_ .run 63 true with regs := RoundState.zero } ∧
    ∃ t, runDrive (.edge 0#1 0b00#2 ports) (at_ .run 63 true) = .next t := ⟨by decide, _, rfl⟩

theorem witness_InstancesShareNothing :
    (∃ sys', System.stepAt (n := 2) #v[{ State.reset with host := [Trace.start] }, State.reset] 0 = .next sys') ∧
    (1 : Fin 2) ≠ 0 := ⟨⟨_, rfl⟩, by decide⟩

theorem test_system_reset_streams : ((System.reset 2).get 0).stream = 0 ∧ ((System.reset 2).get 1).stream = 1 := ⟨rfl, rfl⟩

theorem witness_ModelFaultsWhereTheTablePutsThem :
    (let s := { State.reset with fsm := .run, host := [Trace.nop 1 2] }
     s.host = .edge 0#1 cmdNop { cv := 0, k := 1, w := 2 } :: [] ∧ s.fsm = .run ∧ s.regsDefined = false) ∧
    (let s := { State.reset with host := [Trace.start] }
     ¬ (s.isRound s.nextDrive.1 = true ∧ s.regsDefined = false)) ∧
    { at_ .unreachable 0 false with host := [Trace.start] }.host = .edge 0#1 cmdStart EdgePorts.zero :: [] ∧
    (at_ .run 0 false).isPostReset = false ∧ { noRom with host := [.tbl 1 2] }.cfg.hasTables = false ∧
    checkedRun 1 { State.reset with fsm := .run, host := [Trace.nop 1 2] } = .fault (.uninitRead .a) :=
  ⟨⟨rfl, rfl, rfl⟩, by decide, rfl, by decide, rfl, rfl⟩

theorem witness_CheckedRunRefinesTheRun : ∃ t, checkedRun 1 { State.reset with host := [Trace.loadstart ivBus] } = .next t ∧
    t.regs = iv := ⟨_, rfl, by decide⟩

theorem witness_ResetThenLoadStartsACheckedRun :
    let s := { State.reset with host := [Trace.load ivBus, Trace.start, Trace.nop 1 2] }
    s.isPostReset = true ∧ s.host = Trace.load ivBus :: Trace.start :: Trace.nop 1 2 :: [] := ⟨by decide, rfl⟩

/-- One edge, and sixty-four that all carry a command. -/
theorem witness_EdgesApplyRoundsInOrder :
    (let es : List (BitVec 2 × EdgePorts) := [(0b00#2, ports)]
     let s : State := { at_ .run 0 false with host := es.map (fun (e : BitVec 2 × EdgePorts) => Drive.edge 0#1 e.1 e.2) ++ [] }
     s.fsm = .run ∧ s.ctr = 0 ∧ es.length ≤ 64 ∧ s.host = es.map (fun (e : BitVec 2 × EdgePorts) => Drive.edge 0#1 e.1 e.2) ++ []) ∧
    (let es : List (BitVec 2 × EdgePorts) := List.replicate 64 (0b01#2, ports)
     let s : State := { at_ .run 0 true with host := es.map (fun (e : BitVec 2 × EdgePorts) => Drive.edge 0#1 e.1 e.2) ++ [Trace.rst] }
     s.fsm = .run ∧ s.ctr = 0 ∧ es.length ≤ 64 ∧ s.host = es.map (fun (e : BitVec 2 × EdgePorts) => Drive.edge 0#1 e.1 e.2) ++ [Trace.rst]) :=
  ⟨⟨rfl, rfl, by decide, rfl⟩, rfl, rfl, by decide, rfl⟩

theorem witness_CompressRunsTheSixtyFourRounds :
    let K : Vector Word 64 := Vector.replicate 64 1
    let s := { at_ .done 0 true with host := Trace.compress ivBus K K }
    s.fsm = .done ∧ s.host = Trace.compress ivBus K K ++ [] := ⟨rfl, (List.append_nil _).symm⟩

/-- A drive that completes, and a sequence whose second drive is refused. -/
theorem witness_InputsAreParametersOfTheStep : (∃ t, runDrive Trace.start State.reset = .next t) ∧
    runDrives [.mix 1 2 3 4, .tbl 1 2] noRom = .refused .noTables ∧
    ∃ t, run [Trace.start].length { State.reset with host := [Trace.start] ++ [Trace.rst] } = .next t :=
  ⟨⟨_, rfl⟩, rfl, _, rfl⟩

end Sys2Proof.Tests
end

-- Proofs of the statements about the state and its invariant (10_state.md).
section
/-!
SUPPORT. A drive's run as the hardware's own step (10_state.md R31), what that step can do, and a checked run one
step at a time.
-/

namespace Sys2Proof.Machine

/-- What completes goes on as `f` says; what stops stays as it is. -/
def mapNext {σ τ : Type} (f : σ → τ) : Host.Outcome σ Fault Refusal → Host.Outcome τ Fault Refusal
  | .next s => .next (f s)
  | .fault r => .fault r
  | .refused r => .refused r

section
variable {σ τ : Type} (f : σ → τ)

@[simp] theorem mapNext_next (s : σ) : mapNext f (.next s) = .next (f s) := rfl
@[simp] theorem mapNext_fault (r : Fault) : mapNext f (.fault r) = .fault r := rfl
@[simp] theorem mapNext_refused (r : Refusal) : mapNext f (.refused r) = .refused r := rfl

theorem mapNext_eq_next {o : Host.Outcome σ Fault Refusal} {t : τ} :
    mapNext f o = .next t ↔ ∃ s, o = .next s ∧ f s = t := by
  cases o <;> simp

end

/-! A drive is the hardware's step on its port values. -/

/-- `rst` is 0 or 1. -/
theorem rst_cases (rst : BitVec 1) : rst = 0#1 ∨ rst = 1#1 := by
  revert rst; decide

/-- In `fsm = 11` an edge with `rst = 0` is refused by name (30_encoding.md R67). -/
theorem Hardware.edge_unreachable {m : Hardware} {cmd : BitVec 2} {p : EdgePorts} {ready : Hardware → Hardware}
    (h : m.fsm = .unreachable) : m.edge cmd p ready = .refused .unreachableFsm := by
  simp [Hardware.edge, h]

/-- The MIX port answers with the MFU's function of its inputs (40_mixing.md R91). -/
theorem runDrive_mix_mfu (s : State) (op : BitVec 3) (x y z : Word) :
    runDrive (.mix op x y z) s =
      .next { s with toHardware := s.driveMix op x y z (mfuResult op x y z) (mfuErr op) } := by
  rw [runDrive_mix]
  have h : op = 0#3 ∨ op = 1#3 ∨ op = 2#3 ∨ op = 3#3 ∨ op = 4#3 ∨ op = 5#3 ∨ op = 6#3 ∨ op = 7#3 := by
    revert op; decide
  rcases h with rfl | rfl | rfl | rfl | rfl | rfl | rfl | rfl <;> rfl

/-- In every control state an edge with `rst = 0` is the hardware's edge with its command (42_round.md R112). -/
theorem runDrive_edge_zero (s : State) (cmd : BitVec 2) (p : EdgePorts) :
    runDrive (.edge 0#1 cmd p) s = s.onHardware (fun m => m.edge cmd p (fun t => t.command cmd p)) := by
  cases hf : s.fsm with
  | idle => rw [runDrive_edge_ready s cmd p (.inl hf), State.onHardware_edge_ready (.inl hf)]
  | done => rw [runDrive_edge_ready s cmd p (.inr hf), State.onHardware_edge_ready (.inr hf)]
  | run => rw [runDrive_edge_run s cmd p hf, State.onHardware_edge_run hf]
  | unreachable =>
    rw [runDrive_edge_unreachable s cmd p hf, State.onHardware_of_refused (Hardware.edge_unreachable hf)]

/-- A state in which a drive has left the hardware `m`: a reset has drawn eight free words besides. -/
def State.afterDrive (s : State) (d : Drive) (m : Hardware) : State :=
  { s with toHardware := m, draws := if Safety.isReset d then s.draws + 8 else s.draws }

theorem State.onHardware_eq_mapNext {s : State} {d : Drive} (h : Safety.isReset d = false)
    (f : Hardware → Host.Outcome Hardware Fault Refusal) :
    s.onHardware f = mapNext (s.afterDrive d) (f s.toHardware) := by
  cases hf : f s.toHardware <;> simp [State.onHardware, State.afterDrive, hf, h]

/-- A drive is the hardware's step on its port values (10_state.md R31). -/
theorem runDrive_eq_step (d : Drive) (s : State) :
    runDrive d s = mapNext (s.afterDrive d) (s.toHardware.step d (freeRegs s.stream s.draws)) := by
  cases d with
  | mix op x y z => exact runDrive_mix_mfu s op x y z
  | tbl sel idx => exact (runDrive_tbl_lookup s sel idx).trans (State.onHardware_eq_mapNext rfl _)
  | edge rst cmd p =>
    rcases rst_cases rst with rfl | rfl
    · exact (runDrive_edge_zero s cmd p).trans (State.onHardware_eq_mapNext rfl _)
    · exact runDrive_edge_reset s cmd p

/-- A drive that answers a next state is a step of the hardware that does. -/
theorem hardware_step_of_runDrive {d : Drive} {s t : State} (h : runDrive d s = .next t) :
    ∃ m, s.toHardware.step d (freeRegs s.stream s.draws) = .next m ∧ s.afterDrive d m = t := by
  rwa [runDrive_eq_step, mapNext_eq_next] at h

/-- Everything a step of the hardware that answers a next state can be. -/
theorem Hardware.step_next_cases {m n : Hardware} {d : Drive} {u : RoundState} (h : m.step d u = .next n) :
    (∃ op x y z, d = .mix op x y z ∧ n = m.driveMix op x y z (mfuResult op x y z) (mfuErr op)) ∨
    (∃ sel idx, d = .tbl sel idx ∧ m.cfg.hasTables = true ∧ n = m.driveTbl sel idx) ∨
    (∃ cmd p, d = .edge 1#1 cmd p ∧ n = m.resetTo u) ∨
    (∃ cmd p, d = .edge 0#1 cmd p ∧ m.fsm = .run ∧ n = m.applyRound cmd p) ∨
    (∃ cmd p, d = .edge 0#1 cmd p ∧ (m.fsm = .idle ∨ m.fsm = .done) ∧ n = m.command cmd p) := by
  cases d with
  | mix op x y z =>
    cases h
    exact .inl ⟨op, x, y, z, rfl, rfl⟩
  | tbl sel idx =>
    obtain ⟨ht, hn⟩ := Hardware.lookup_next h
    exact .inr (.inl ⟨sel, idx, rfl, ht, hn⟩)
  | edge rst cmd p =>
    rcases rst_cases rst with rfl | rfl
    · rw [Hardware.step_edge] at h
      rcases Hardware.edge_next h with ⟨hf, hn⟩ | ⟨hf, hn⟩
      · exact .inr (.inr (.inr (.inr ⟨cmd, p, rfl, hf, hn⟩)))
      · exact .inr (.inr (.inr (.inl ⟨cmd, p, rfl, hf, hn⟩)))
    · cases h
      exact .inr (.inr (.inl ⟨cmd, p, rfl, rfl⟩))

/-! Nothing outside the hardware and its free values has a part in a drive (10_state.md R31). -/

/-- `s` with other drives waiting. -/
def State.withHost (l : List Drive) (s : State) : State := { s with host := l }

/-- The waiting drives have no part in a drive and come out as they were. -/
theorem runDrive_withHost (d : Drive) (s : State) (l : List Drive) :
    runDrive d (s.withHost l) = mapNext (State.withHost l) (runDrive d s) := by
  rw [runDrive_eq_step, runDrive_eq_step]
  cases hm : s.toHardware.step d (freeRegs s.stream s.draws) <;> simp only [State.withHost, hm] <;> rfl

theorem runDrive_keeps_host {d : Drive} {s t : State} (h : runDrive d s = .next t) : t.host = s.host := by
  obtain ⟨m, -, rfl⟩ := hardware_step_of_runDrive h
  rfl

/-- A step of the closed machine takes the first waiting drive. -/
theorem step_withHost_cons (d : Drive) (l : List Drive) (s : State) :
    step (s.withHost (d :: l)) = mapNext (State.withHost l) (runDrive d s) :=
  (step_of_host _ rfl).trans (runDrive_withHost d s l)

theorem run_withHost_append (ds rest : List Drive) (s : State) :
    run ds.length (s.withHost (ds ++ rest)) = mapNext (State.withHost rest) (runDrives ds s) := by
  induction ds generalizing s with
  | nil => rfl
  | cons d ds ih =>
    have hstep := step_withHost_cons d (ds ++ rest) s
    cases hd : runDrive d s with
    | next t =>
      rw [hd, mapNext_next] at hstep
      rw [runDrives_cons s ds hd, ← ih t]
      exact run_succ ds.length hstep
    | fault f =>
      rw [hd, mapNext_fault] at hstep
      simpa [runDrives, hd] using run_fault ds.length hstep
    | refused r =>
      rw [hd, mapNext_refused] at hstep
      simpa [runDrives, hd] using run_refused ds.length hstep

/-- Drives that complete are steps of the hardware alone, under some unspecified words. -/
theorem steps_of_runDrives (ds : List Drive) {s t : State} (h : runDrives ds s = .next t) :
    ∃ us : List RoundState, us.length = ds.length ∧ Hardware.steps (ds.zip us) s.toHardware = .next t.toHardware := by
  induction ds generalizing s with
  | nil =>
    cases h
    exact ⟨[], rfl, rfl⟩
  | cons d ds ih =>
    cases hd : runDrive d s with
    | next s' =>
      rw [runDrives_cons s ds hd] at h
      obtain ⟨us, hlen, hus⟩ := ih h
      obtain ⟨m, hm, rfl⟩ := hardware_step_of_runDrive hd
      exact ⟨freeRegs s.stream s.draws :: us, by simp [hlen], (Hardware.steps_cons _ hm).trans hus⟩
    | fault f => simp [runDrives, hd] at h
    | refused r => simp [runDrives, hd] at h

theorem Hardware.busy_of_ready {m : Hardware} (h : m.fsm = .idle ∨ m.fsm = .done) : m.busy = false := by
  rcases h with h | h <;> simp [Hardware.busy, h]

/-! `err` is written and never read (10_state.md R24). -/

/-- A command outside RUN does the same whatever `err` is. -/
theorem Hardware.command_with_err (m : Hardware) (b : Bool) (cmd : BitVec 2) (p : EdgePorts) :
    ({ m with err := b } : Hardware).command cmd p = { m.command cmd p with err := b } := by
  rcases cmd_cases cmd with rfl | rfl | rfl | rfl
  · simp only [Hardware.command_nop]
  · simp only [Hardware.command_load]; rfl
  · simp only [Hardware.command_start]; rfl
  · simp only [Hardware.command_loadstart]; rfl

/-- With `err` changed before a step, nothing but `err` changes after it. -/
theorem Hardware.step_with_err {m n : Hardware} {d : Drive} {u : RoundState} (b : Bool) (h : m.step d u = .next n) :
    ∃ e, ({ m with err := b } : Hardware).step d u = .next { n with err := e } := by
  rcases Hardware.step_next_cases h with ⟨op, x, y, z, rfl, rfl⟩ | ⟨sel, idx, rfl, ht, rfl⟩ | ⟨cmd, p, rfl, rfl⟩ |
    ⟨cmd, p, rfl, hf, rfl⟩ | ⟨cmd, p, rfl, hf, rfl⟩
  · exact ⟨b, rfl⟩
  · exact ⟨b, Hardware.lookup_present ht⟩
  · exact ⟨false, rfl⟩
  · refine ⟨errAfterRound b cmd, ?_⟩
    rw [Hardware.step_edge]
    exact Hardware.edge_run hf
  · refine ⟨b, ?_⟩
    rw [Hardware.step_edge, ← Hardware.command_with_err]
    exact Hardware.edge_ready hf

theorem runDrive_with_err {d : Drive} {s t : State} (b : Bool) (h : runDrive d s = .next t) :
    ∃ e, runDrive d { s with err := b } = .next { t with err := e } := by
  obtain ⟨m, hm, rfl⟩ := hardware_step_of_runDrive h
  obtain ⟨e, he⟩ := Hardware.step_with_err b hm
  exact ⟨e, by rw [runDrive_eq_step, he]; rfl⟩

/-- A round sets `err` when the edge carries a command, and else keeps it. -/
theorem errAfterRound_eq (e : Bool) (cmd : BitVec 2) : errAfterRound e cmd = (e || cmd != cmdNop) := by
  by_cases h : cmd = cmdNop <;> simp [errAfterRound, h]

/-- `err` after a drive. -/
theorem runDrive_err {d : Drive} {s t : State} (h : runDrive d s = .next t) :
    t.err = if Safety.isReset d then false else (s.err || (s.busy && Safety.isCommand d)) := by
  rcases runDrive_next_cases h with ⟨op, x, y, z, r, err, rfl, rfl⟩ | ⟨sel, idx, rfl, -, rfl⟩ | ⟨cmd, p, rfl, rfl⟩ |
    ⟨cmd, p, rfl, hf, rfl⟩ | ⟨cmd, p, rfl, hf, rfl⟩
  · simp [Safety.isReset, Safety.isCommand]
  · simp [Safety.isReset, Safety.isCommand]
  · simp [Safety.isReset]
  · simp [Safety.isReset, Safety.isCommand, Hardware.busy, hf, errAfterRound_eq]
  · obtain ⟨-, -, -, herr⟩ := s.command_frame cmd p
    simp [Safety.isReset, Hardware.busy_of_ready hf, herr]

/-! What a command does to a..h (10_state.md R21, R33). -/

/-- A command outside RUN leaves a..h, or is LOAD or LOADSTART and writes all eight. -/
theorem Hardware.command_regs (m : Hardware) (cmd : BitVec 2) (p : EdgePorts) :
    (m.command cmd p).regs = m.regs ∨ ((cmd = cmdLoad ∨ cmd = cmdLoadstart) ∧ (m.command cmd p).regs = unpack p.cv) := by
  rcases m.command_cases cmd p with ⟨-, h⟩ | ⟨hc, h⟩ | ⟨-, h⟩ | ⟨hc, h⟩
  · exact .inl (by simp [h])
  · exact .inr ⟨.inl hc, by simp [h]⟩
  · exact .inl (by simp [h])
  · exact .inr ⟨.inr hc, by simp [h]⟩

theorem Hardware.command_regsDefined (m : Hardware) (cmd : BitVec 2) (p : EdgePorts) :
    (m.command cmd p).regsDefined = (m.regsDefined || (cmd == cmdLoad || cmd == cmdLoadstart)) := by
  rcases m.command_cases cmd p with ⟨rfl, h⟩ | ⟨rfl, h⟩ | ⟨rfl, h⟩ | ⟨rfl, h⟩ <;> rw [h] <;>
    simp [cmdNop, cmdLoad, cmdStart, cmdLoadstart]

/-! A checked run one step at a time. -/

/-- Outside RUN the checked step is the step: no round is made. -/
theorem checkedStep_not_run {s : State} (h : s.fsm ≠ .run) : checkedStep s = step s := by
  have hround : ∀ d, s.isRound d = false := by
    intro d
    cases d <;> simp [State.isRound, h]
  simp [checkedStep, hround]

/-- Outside RUN a checked step on an edge with `rst = 0` applies its command. -/
theorem checkedStep_ready {s : State} {n : Hardware} {cmd : BitVec 2} {p : EdgePorts} {rest : List Drive}
    (hf : s.fsm = .idle ∨ s.fsm = .done) (h : s.host = .edge 0#1 cmd p :: rest) (hn : s.command cmd p = n) :
    checkedStep s = .next { s with toHardware := n, host := rest } := by
  subst hn
  have hrun : s.fsm ≠ .run := by rcases hf with hf | hf <;> simp [hf]
  rw [checkedStep_not_run hrun, step_of_host s h]
  exact runDrive_edge_ready { s with host := rest } cmd p hf

/-- In RUN, with a value in a..h, it applies a round. -/
theorem checkedStep_run {s : State} {cmd : BitVec 2} {p : EdgePorts} {rest : List Drive}
    (hf : s.fsm = .run) (hdef : s.regsDefined = true) (h : s.host = .edge 0#1 cmd p :: rest) :
    checkedStep s = .next { s with toHardware := s.applyRound cmd p, host := rest } := by
  rw [checkedStep_defined hdef, step_of_host s h]
  exact runDrive_edge_run { s with host := rest } cmd p hf

/-- A checked run whose first step answers a next state goes on from there. -/
theorem checkedRun_succ {s t : State} (k : Nat) (h : checkedStep s = .next t) :
    checkedRun (k + 1) s = checkedRun k t := by
  simp [checkedRun, h]

theorem State.isPostReset_iff (s : State) :
    s.isPostReset = true ↔ s.fsm = .idle ∧ s.ctr = 0 ∧ s.err = false ∧ s.regsDefined = false := by
  simp [State.isPostReset, and_assoc]

theorem State.resetEdge_isPostReset (s : State) : s.resetEdge.isPostReset = true := by
  simp [State.isPostReset_iff]

end Sys2Proof.Machine
end

section
/-!
SUPPORT. Every step of the hardware keeps the invariant: one lemma per operation.
-/

namespace Sys2Proof.Safety

open Sys2Proof.Machine

/-- The invariant as a property of the hardware: nothing beside it has a part in `StateInv`. -/
abbrev HardwareInv (m : Hardware) : Prop :=
  m.fsm ≠ .unreachable ∧ (m.fsm ≠ .run → m.ctr = 0) ∧ MixPortAgrees m.mix ∧ TblPortAgrees m.tbl

theorem stateInv_iff_hardwareInv (s : State) : StateInv s ↔ HardwareInv s.toHardware := Iff.rfl

variable {m : Hardware}

theorem HardwareInv.driveMix (h : HardwareInv m) (op : BitVec 3) (x y z : Word) :
    HardwareInv (m.driveMix op x y z (mfuResult op x y z) (mfuErr op)) := by
  obtain ⟨hfsm, hctr, -, htbl⟩ := h
  exact ⟨hfsm, hctr, ⟨rfl, rfl⟩, htbl⟩

theorem HardwareInv.driveTbl (h : HardwareInv m) (sel : BitVec 2) (idx : BitVec 12) :
    HardwareInv (m.driveTbl sel idx) := by
  obtain ⟨hfsm, hctr, hmix, -⟩ := h
  exact ⟨hfsm, hctr, hmix, rfl⟩

theorem HardwareInv.resetTo (h : HardwareInv m) (u : RoundState) : HardwareInv (m.resetTo u) := by
  obtain ⟨-, -, hmix, htbl⟩ := h
  exact ⟨by simp, fun _ => rfl, hmix, htbl⟩

/-- A round leaves RUN only after round 63, which is where `ctr` wraps to 0 (42_round.md R117, R123). -/
theorem HardwareInv.applyRound (h : HardwareInv m) (cmd : BitVec 2) (p : EdgePorts) :
    HardwareInv (m.applyRound cmd p) := by
  obtain ⟨-, -, hmix, htbl⟩ := h
  by_cases hlast : m.ctr = 63#6
  · exact ⟨by simp [hlast], by simp [hlast], hmix, htbl⟩
  · exact ⟨by simp [fsmAfterRound_of_ne hlast], by simp [fsmAfterRound_of_ne hlast], hmix, htbl⟩

theorem HardwareInv.command (h : HardwareInv m) (cmd : BitVec 2) (p : EdgePorts) :
    HardwareInv (m.command cmd p) := by
  rcases m.command_cases cmd p with ⟨-, hc⟩ | ⟨-, hc⟩ | ⟨-, hc⟩ | ⟨-, hc⟩ <;> rw [hc]
  · exact h
  all_goals
    obtain ⟨-, -, hmix, htbl⟩ := h
    exact ⟨by simp, fun _ => rfl, hmix, htbl⟩

theorem HardwareInv.step {n : Hardware} {d : Drive} {u : RoundState} (h : HardwareInv m)
    (hstep : m.step d u = .next n) : HardwareInv n := by
  rcases Hardware.step_next_cases hstep with ⟨op, x, y, z, -, rfl⟩ | ⟨sel, idx, -, -, rfl⟩ | ⟨cmd, p, -, rfl⟩ |
    ⟨cmd, p, -, -, rfl⟩ | ⟨cmd, p, -, -, rfl⟩
  · exact h.driveMix op x y z
  · exact h.driveTbl sel idx
  · exact h.resetTo u
  · exact h.applyRound cmd p
  · exact h.command cmd p

theorem StateInv.runDrive {d : Drive} {s t : State} (h : StateInv s) (hd : runDrive d s = .next t) : StateInv t := by
  obtain ⟨m, hm, rfl⟩ := hardware_step_of_runDrive hd
  exact (stateInv_iff_hardwareInv _).mpr (HardwareInv.step h hm)

theorem StateInv.nextDrive {s : State} (h : StateInv s) : StateInv s.nextDrive.2 := by
  obtain ⟨-, -, hctr, hfsm, -, hmix, htbl, -, -⟩ := s.nextDrive_frame
  rw [StateInv, hctr, hfsm, hmix, htbl]
  exact h

end Sys2Proof.Safety
end

section
/-!
The statements of 10_state.md, each settled from the lemmas above.
-/

namespace Sys2Proof.Proofs

open Sys2Proof.Machine Sys2Proof.Safety

/-- Settles O43: taking the next drive keeps the invariant, and so does running it, operation by operation. -/
theorem everyStepKeepsTheInvariant : Obligations.EveryStepKeepsTheInvariant := by
  intro s t hs hstep
  exact hs.nextDrive.runDrive hstep

/-- Settles O46, by the cases of a drive; that nothing reads `err` is `Hardware.step_with_err`. -/
theorem errIsStickyAndUnread : Obligations.ErrIsStickyAndUnread :=
  ⟨fun _ _ _ h => runDrive_err h, fun _ _ _ b h => runDrive_with_err b h⟩

/-- Settles O49, by the cases of a drive: the ports leave a..h, and so do NOP and START. -/
theorem whatWritesTheRegisterFile : Obligations.WhatWritesTheRegisterFile := by
  intro d s t h hne
  rcases runDrive_next_cases h with ⟨op, x, y, z, r, err, rfl, rfl⟩ | ⟨sel, idx, rfl, -, rfl⟩ | ⟨cmd, p, rfl, rfl⟩ |
    ⟨cmd, p, rfl, hf, rfl⟩ | ⟨cmd, p, rfl, hf, rfl⟩
  · exact absurd rfl hne
  · exact absurd rfl hne
  · exact ⟨1#1, cmd, p, rfl, .inl rfl⟩
  · exact ⟨0#1, cmd, p, rfl, .inr (.inl ⟨rfl, hf, rfl⟩)⟩
  · rcases s.command_regs cmd p with hkept | ⟨hcmd, hregs⟩
    · exact absurd hkept hne
    · exact ⟨0#1, cmd, p, rfl, .inr (.inr ⟨rfl, hf, hcmd, hregs⟩)⟩

/-- Settles O50, by the cases of a drive. -/
theorem windowWithoutAValue : Obligations.WindowWithoutAValue := by
  refine ⟨fun d s t h => ?_, fun s => rfl⟩
  rcases runDrive_next_cases h with ⟨op, x, y, z, r, err, rfl, rfl⟩ | ⟨sel, idx, rfl, -, rfl⟩ | ⟨cmd, p, rfl, rfl⟩ |
    ⟨cmd, p, rfl, hf, rfl⟩ | ⟨cmd, p, rfl, hf, rfl⟩
  · rfl
  · rfl
  · simp
  · simp [Hardware.busy, hf]
  · simp [Hardware.busy_of_ready hf, Hardware.command_regsDefined, cmdLoad, cmdLoadstart]

/-- Settles O57: LOAD and START run outside RUN, and the round finds the registers LOAD defined. -/
theorem resetThenLoadStartsACheckedRun : Obligations.ResetThenLoadStartsACheckedRun := by
  refine ⟨fun p s => ⟨s.resetEdge, exec_reset p s, s.resetEdge_isPostReset⟩, rfl, ?_⟩
  intro s cv k w rest hpost hhost
  obtain ⟨hfsm, -, -, -⟩ := s.isPostReset_iff.mp hpost
  calc runFrom 3 s = checkedRun 3 s := by simp [runFrom, hpost]
    _ = checkedRun 2 { s with
          toHardware := (s.loadRegs cv).enter .idle
          host := Trace.start :: Trace.nop k w :: rest } :=
        checkedRun_succ 2 (checkedStep_ready (.inl hfsm) hhost (Hardware.command_load _ _))
    _ = checkedRun 1 { s with
          toHardware := ((s.loadRegs cv).enter .idle).enter .run
          host := Trace.nop k w :: rest } :=
        checkedRun_succ 1 (checkedStep_ready (.inl rfl) rfl (Hardware.command_start _ _))
    _ = checkedRun 0 { s with
          toHardware := (((s.loadRegs cv).enter .idle).enter .run).applyRound cmdNop { cv := 0, k := k, w := w }
          host := rest } :=
        checkedRun_succ 0 (checkedStep_run rfl rfl rfl)
    _ = _ := rfl

/-- Settles O60: a drive is the hardware's step, and a run of the closed machine is `runDrives` of its list, by
induction on the list. -/
theorem inputsAreParametersOfTheStep : Obligations.InputsAreParametersOfTheStep := by
  refine ⟨fun d s l => ?_, fun _ _ _ h => runDrive_keeps_host h, fun ds rest s => ?_, fun d s => ?_,
    fun ds rest s t h => ?_⟩
  · refine (runDrive_withHost d s l).trans ?_
    cases runDrive d s <;> rfl
  · refine (run_withHost_append ds rest s).trans ?_
    cases runDrives ds s <;> rfl
  · refine (runDrive_eq_step d s).trans ?_
    cases s.toHardware.step d (freeRegs s.stream s.draws) <;> rfl
  · obtain ⟨s', hs', ht⟩ := (mapNext_eq_next _).mp ((run_withHost_append ds rest s).symm.trans h)
    subst ht
    exact steps_of_runDrives (t := s') ds hs'

/-- Settles O37, from the definitions of the outputs. -/
theorem outputsFollowTheState : Obligations.OutputsFollowTheState := by
  intro s
  exact ⟨by simp [Hardware.busy], by simp [Hardware.done], rfl, rfl, rfl⟩

/-- Settles O38, by evaluating the fixed state; the ROM answers because `HAS_TABLES` is 1 by default. -/
theorem resetStateValues : Obligations.ResetStateValues := by
  refine ⟨rfl, rfl, rfl, rfl, rfl, rfl, rfl, rfl, fun sel idx => ?_⟩
  exact ⟨_, (runDrive_tbl_lookup _ sel idx).trans (State.onHardware_lookup_present rfl), rfl⟩

/-- Settles O44, by evaluating the fixed state. -/
theorem resetMeetsTheInvariant : Obligations.ResetMeetsTheInvariant := by
  unfold Obligations.ResetMeetsTheInvariant
  decide

end Sys2Proof.Proofs
end

-- Proofs of the statements about the memories and the buses (20_memory.md).
section
/-!
SUPPORT. The place of a word in the table ROM and of a register on a bus, and an edge seen from a state whose MIX
and ROM ports are others.
-/

namespace Sys2Proof.Machine

/-! The address map of the ROM (20_memory.md R48). -/

theorem append_toNat {v w : Nat} (hi : BitVec v) (lo : BitVec w) :
    (hi ++ lo).toNat = 2 ^ w * hi.toNat + lo.toNat := by
  rw [BitVec.toNat_append, ← Nat.shiftLeft_add_eq_or_of_lt lo.isLt, Nat.shiftLeft_eq, Nat.mul_comm]

theorem romAddr_toNat (sel : BitVec 2) (idx : BitVec 12) :
    (romAddr sel idx).toNat = 0x1000 * sel.toNat + idx.toNat :=
  append_toNat sel idx

theorem zext32_ofNat {n : Nat} (h : n < 0x1000) : zext32 (BitVec.ofNat 12 n) = BitVec.ofNat 32 n := by
  apply BitVec.eq_of_toNat_eq
  simp only [zext32, BitVec.toNat_setWidth, BitVec.toNat_ofNat]
  omega

/-- The addresses of quarter `sel` are those with the select `sel`. -/
theorem eq_romAddr_of_quarter {addr : BitVec 14} (sel : BitVec 2) (hlo : 0x1000 * sel.toNat ≤ addr.toNat)
    (hhi : addr.toNat ≤ 0x1000 * sel.toNat + 0xfff) :
    addr = romAddr sel (BitVec.ofNat 12 (addr.toNat - 0x1000 * sel.toNat)) := by
  apply BitVec.eq_of_toNat_eq
  rw [romAddr_toNat, BitVec.toNat_ofNat]
  omega

/-- A quarter of the ROM holds the table of its number, in index order. -/
theorem romRead_of_quarter {addr : BitVec 14} (sel : BitVec 2) (hlo : 0x1000 * sel.toNat ≤ addr.toNat)
    (hhi : addr.toNat ≤ 0x1000 * sel.toNat + 0xfff) :
    romRead addr =
      if sel = 0b00#2 then bsig0 (BitVec.ofNat 32 (addr.toNat - 0x1000 * sel.toNat))
      else if sel = 0b01#2 then bsig1 (BitVec.ofNat 32 (addr.toNat - 0x1000 * sel.toNat))
      else if sel = 0b10#2 then ssig0 (BitVec.ofNat 32 (addr.toNat - 0x1000 * sel.toNat))
      else ssig1 (BitVec.ofNat 32 (addr.toNat - 0x1000 * sel.toNat)) := by
  have hidx : addr.toNat - 0x1000 * sel.toNat < 0x1000 := by omega
  rw [← zext32_ofNat hidx, ← romRead_romAddr, ← eq_romAddr_of_quarter sel hlo hhi]

/-- With the ROM a drive of its port completes and changes that port alone. -/
theorem runDrive_tbl_present {s : State} (sel : BitVec 2) (idx : BitVec 12) (h : s.cfg.hasTables = true) :
    runDrive (.tbl sel idx) s = .next { s with toHardware := s.driveTbl sel idx } :=
  (runDrive_tbl_lookup s sel idx).trans (State.onHardware_lookup_present h)

/-! The eight words on a bus (20_memory.md R42). -/

theorem unpack_get (v : CvBus) (r : Reg) : (unpack v).get r = v.extractLsb' (224 - 32 * r.index) 32 := by
  cases r <;> rfl

/-- The bus read as one number spells the eight words, a in the most significant position. -/
theorem pack_toNat (s : RoundState) :
    (pack s).toNat =
      2 ^ 32 * (2 ^ 32 * (2 ^ 32 * (2 ^ 32 * (2 ^ 32 * (2 ^ 32 * (2 ^ 32 * s.a.toNat + s.b.toNat) + s.c.toNat) +
        s.d.toNat) + s.e.toNat) + s.f.toNat) + s.g.toNat) + s.h.toNat := by
  simp only [pack, append_toNat]

theorem pack_extract (s : RoundState) (r : Reg) :
    (pack s).extractLsb' (224 - 32 * r.index) 32 = s.get r := by
  apply BitVec.eq_of_toNat_eq
  rw [BitVec.extractLsb'_toNat, pack_toNat, Nat.shiftRight_eq_div_pow]
  cases r <;> simp only [Reg.index, RoundState.get] <;> omega

theorem RoundState.ext_get {s t : RoundState} (h : ∀ r, s.get r = t.get r) : s = t := by
  cases s
  cases t
  simpa [RoundState.get] using And.intro (h .a) ⟨h .b, h .c, h .d, h .e, h .f, h .g, h .h⟩

theorem unpack_pack (s : RoundState) : unpack (pack s) = s :=
  RoundState.ext_get fun r => (unpack_get (pack s) r).trans (pack_extract s r)

/-- A number below 2^256 is made of its eight digits to the base 2^32. -/
theorem pack_unpack (v : CvBus) : pack (unpack v) = v := by
  apply BitVec.eq_of_toNat_eq
  simp only [pack_toNat, unpack, BitVec.extractLsb'_toNat, Nat.shiftRight_eq_div_pow]
  omega

/-! An edge neither reads nor writes the MIX and ROM ports (20_memory.md R51). -/

/-- The hardware with other values on the wires of its MIX and ROM ports. -/
def Hardware.withPorts (mix : MixPort) (tbl : TblPort) (m : Hardware) : Hardware := { m with mix := mix, tbl := tbl }

/-- The state with other values on the wires of its MIX and ROM ports. -/
def State.withPorts (mix : MixPort) (tbl : TblPort) (s : State) : State :=
  { s with toHardware := s.toHardware.withPorts mix tbl }

/-- Two states hold the same RCE exactly when they differ in the ports alone. -/
theorem sameRce_iff_withPorts {s t : State} : Safety.SameRce s t ↔ t = s.withPorts t.mix t.tbl := by
  constructor
  · rintro ⟨hregs, hdef, hctr, hfsm, herr, hhost, hstream, hdraws, hcfg⟩
    ext <;> simp [State.withPorts, Hardware.withPorts, *]
  · intro h
    rw [h]
    exact ⟨rfl, rfl, rfl, rfl, rfl, rfl, rfl, rfl, rfl⟩

theorem sameRce_withPorts (mix : MixPort) (tbl : TblPort) (s : State) : Safety.SameRce s (s.withPorts mix tbl) :=
  sameRce_iff_withPorts.mpr rfl

section
variable (mix : MixPort) (tbl : TblPort)

theorem Hardware.command_withPorts (m : Hardware) (cmd : BitVec 2) (p : EdgePorts) :
    (m.withPorts mix tbl).command cmd p = (m.command cmd p).withPorts mix tbl := by
  rcases cmd_cases cmd with rfl | rfl | rfl | rfl
  · simp only [Hardware.command_nop]
  · simp only [Hardware.command_load]; rfl
  · simp only [Hardware.command_start]; rfl
  · simp only [Hardware.command_loadstart]; rfl

theorem Hardware.edge_withPorts (m : Hardware) (cmd : BitVec 2) (p : EdgePorts) :
    (m.withPorts mix tbl).edge cmd p (fun t => t.command cmd p) =
      mapNext (Hardware.withPorts mix tbl) (m.edge cmd p (fun t => t.command cmd p)) := by
  have hcases : (m.fsm = .idle ∨ m.fsm = .done) ∨ m.fsm = .run ∨ m.fsm = .unreachable := by
    cases m.fsm <;> simp
  rcases hcases with hf | hf | hf
  · rw [Hardware.edge_ready hf, Hardware.edge_ready (m := m.withPorts mix tbl) hf, Hardware.command_withPorts]
    rfl
  · rw [Hardware.edge_run hf, Hardware.edge_run (m := m.withPorts mix tbl) hf]
    rfl
  · rw [Hardware.edge_unreachable hf, Hardware.edge_unreachable (m := m.withPorts mix tbl) hf]
    rfl

theorem Hardware.step_edge_withPorts (m : Hardware) (rst : BitVec 1) (cmd : BitVec 2) (p : EdgePorts) (u : RoundState) :
    (m.withPorts mix tbl).step (.edge rst cmd p) u =
      mapNext (Hardware.withPorts mix tbl) (m.step (.edge rst cmd p) u) := by
  rcases rst_cases rst with rfl | rfl
  · exact Hardware.edge_withPorts mix tbl m cmd p
  · rfl

/-- An edge does to a state with other ports what it does to the state, and leaves the other ports. -/
theorem runDrive_edge_withPorts (s : State) (rst : BitVec 1) (cmd : BitVec 2) (p : EdgePorts) :
    runDrive (.edge rst cmd p) (s.withPorts mix tbl) =
      mapNext (State.withPorts mix tbl) (runDrive (.edge rst cmd p) s) := by
  rw [runDrive_eq_step, runDrive_eq_step]
  have hstep := Hardware.step_edge_withPorts mix tbl s.toHardware rst cmd p (freeRegs s.stream s.draws)
  refine (congrArg (mapNext _) hstep).trans ?_
  cases s.toHardware.step (.edge rst cmd p) (freeRegs s.stream s.draws) <;> rfl

end

theorem runDrive_edge_frame {s t : State} {rst : BitVec 1} {cmd : BitVec 2} {p : EdgePorts}
    (h : runDrive (.edge rst cmd p) s = .next t) : t.mix = s.mix ∧ t.tbl = s.tbl ∧ t.cfg = s.cfg := by
  rcases runDrive_next_cases h with ⟨_, _, _, _, _, _, hd, -⟩ | ⟨_, _, hd, -, -⟩ | ⟨_, _, -, rfl⟩ |
    ⟨_, _, -, -, rfl⟩ | ⟨cmd', p', -, -, rfl⟩
  · cases hd
  · cases hd
  · exact ⟨rfl, rfl, rfl⟩
  · exact ⟨rfl, rfl, rfl⟩
  · obtain ⟨hmix, htbl, hcfg, -⟩ := s.command_frame cmd' p'
    exact ⟨hmix, htbl, hcfg⟩

end Sys2Proof.Machine
end

section
/-!
The statements of 20_memory.md, each settled from the lemmas above.
-/

namespace Sys2Proof.Proofs

open Sys2Proof.Machine Sys2Proof.Safety

/-- Settles O22: each range is the quarter of one select, whose table `romRead_of_quarter` gives. -/
theorem romAddressMap : Obligations.RomAddressMap := by
  refine ⟨fun addr => ⟨fun hhi => ?_, fun ⟨hlo, hhi⟩ => ?_, fun ⟨hlo, hhi⟩ => ?_, fun hlo => ?_⟩, romAddr_toNat,
    fun sel idx s hrom => ?_⟩
  · exact romRead_of_quarter 0b00#2 (Nat.zero_le _) hhi
  · exact romRead_of_quarter 0b01#2 hlo hhi
  · exact romRead_of_quarter 0b10#2 hlo hhi
  · exact romRead_of_quarter 0b11#2 hlo (Nat.le_of_lt_succ addr.isLt)
  · exact ⟨_, runDrive_tbl_present sel idx hrom, by simp [Hardware.tblQ, hrom]⟩

/-- Settles O36, register by register. -/
theorem busPacking : Obligations.BusPacking :=
  ⟨unpack_get, pack_extract, unpack_pack, pack_unpack⟩

/-- Settles O52: a port's drive is a change of ports, and an edge commutes with every such change. -/
theorem portsAndRceAreIndependent : Obligations.PortsAndRceAreIndependent := by
  refine ⟨fun op x y z s t h => ?_, fun sel idx s t h => ?_, fun _ _ _ _ _ h => runDrive_edge_frame h,
    fun rst cmd p s s' t hsame h => ?_, fun op x y z s s' => ?_, fun sel idx s s' hrom hrom' => ?_⟩
  · rw [runDrive_mix_mfu] at h
    cases h
    exact ⟨sameRce_withPorts _ s.tbl s, rfl⟩
  · rw [runDrive_tbl_lookup] at h
    obtain ⟨-, rfl⟩ := State.onHardware_lookup_next h
    exact ⟨sameRce_withPorts s.mix _ s, rfl⟩
  · refine ⟨t.withPorts s'.mix s'.tbl, ?_, sameRce_withPorts _ _ t⟩
    rw [sameRce_iff_withPorts.mp hsame, runDrive_edge_withPorts, h]
    rfl
  · exact ⟨_, _, runDrive_mix_mfu s op x y z, runDrive_mix_mfu s' op x y z, rfl⟩
  · exact ⟨_, _, runDrive_tbl_present sel idx hrom, runDrive_tbl_present sel idx hrom', rfl⟩

end Sys2Proof.Proofs
end

-- Proofs of the statements about the encoding and what a drive stands for (30_encoding.md).
section
/-!
SUPPORT. Every select and key decoded and encoded again: the key by its fields `rst`, `fsm`, `cmd`
(30_encoding.md R67), the MIX and ROM selects one by one (R64, R65).
-/

namespace Sys2Proof

/-- The four `tbl_sel` values. -/
theorem tblSel_cases (sel : BitVec 2) : sel = 0b00#2 ∨ sel = 0b01#2 ∨ sel = 0b10#2 ∨ sel = 0b11#2 := by
  revert sel; decide

/-- The eight `mix_op` values. -/
theorem mixOp_cases (op : BitVec 3) :
    op = 0b000#3 ∨ op = 0b001#3 ∨ op = 0b010#3 ∨ op = 0b011#3 ∨ op = 0b100#3 ∨ op = 0b101#3 ∨ op = 0b110#3 ∨
      op = 0b111#3 := by
  revert op; decide

/-! Encoding what a select decodes to gives the select back: no bit of it is free. -/

theorem encode_decodeMix (op : BitVec 3) (x y z : Word) : encode (decodeMix op x y z) = .mixop op x y z := by
  rcases mixOp_cases op with rfl | rfl | rfl | rfl | rfl | rfl | rfl | rfl <;> rfl

theorem encode_decodeTbl (sel : BitVec 2) (idx : BitVec 12) : encode (decodeTbl sel idx) = .tblsel sel idx := by
  rcases tblSel_cases sel with rfl | rfl | rfl | rfl <;> rfl

theorem decodeMix_reserved (low : BitVec 1) (x y z : Word) :
    decodeMix (rowMixReserved.pattern ||| low.setWidth 3) x y z = .mixReserved low x y z := by
  rcases BitVec.eq_zero_or_eq_one low with rfl | rfl <;> rfl

/-! The operations of the RCE by the fields of their keys. -/

/-- The operation that a command selects outside RUN (30_encoding.md R66, R67). -/
def commandInstr (cmd : BitVec 2) (p : EdgePorts) : Instr :=
  if cmd = cmdNop then .nop p
  else if cmd = cmdLoad then .load p
  else if cmd = cmdStart then .start p
  else .loadstart p

theorem decodeKey_command {fsm : Fsm} (h : fsm = .idle ∨ fsm = .done) (cmd : BitVec 2) (p : EdgePorts) :
    decodeKey (rceKey 0#1 fsm cmd) p = .ok (commandInstr cmd p) := by
  obtain ⟨hnop, hload, hstart, hloadstart⟩ := decodeKey_ready h p
  rcases cmd_cases cmd with rfl | rfl | rfl | rfl
  · exact hnop
  · exact hload
  · exact hstart
  · exact hloadstart

theorem encode_commandInstr (cmd : BitVec 2) (p : EdgePorts) :
    encode (commandInstr cmd p) = .rcekey (rceKey 0#1 .idle cmd) p := by
  rcases cmd_cases cmd with rfl | rfl | rfl | rfl <;> rfl

theorem encode_reset (p : EdgePorts) : encode (.reset p) = .rcekey (rceKey 1#1 .idle cmdNop) p := rfl

theorem encode_round (cmd : BitVec 2) (p : EdgePorts) :
    encode (.round cmd p) = .rcekey (rceKey 0#1 .run cmd) p := by
  have hkey : rowRound.pattern ||| cmd.setWidth 5 = rceKey 0#1 .run cmd := by revert cmd; decide
  rw [encode, hkey]

section
variable {key : BitVec 5} (p : EdgePorts)

theorem decodeKey_of_rst (hrst : keyRst key = 1#1) : decodeKey key p = .ok (.reset p) := by
  rw [← rceKey_fields key, hrst, decodeKey_reset]

theorem decodeKey_of_ready (hrst : keyRst key = 0#1) (hfsm : keyFsm key = .idle ∨ keyFsm key = .done) :
    decodeKey key p = .ok (commandInstr (keyCmd key) p) := by
  rw [← decodeKey_command hfsm, ← hrst, rceKey_fields]

theorem decodeKey_of_run (hrst : keyRst key = 0#1) (hfsm : keyFsm key = .run) :
    decodeKey key p = .ok (.round (keyCmd key) p) := by
  rw [← decodeKey_run, ← hrst, ← hfsm, rceKey_fields]

theorem decodeKey_of_unreachable (hrst : keyRst key = 0#1) (hfsm : keyFsm key = .unreachable) :
    decodeKey key p = .error .unreachableFsm := by
  rw [← decodeKey_unreachable (keyCmd key) p, ← hrst, ← hfsm, rceKey_fields]

/-- Everything a key that is not refused can be. -/
theorem decodeKey_ok_cases {p : EdgePorts} {i : Instr} (h : decodeKey key p = .ok i) :
    (keyRst key = 1#1 ∧ i = .reset p) ∨
    (keyRst key = 0#1 ∧ (keyFsm key = .idle ∨ keyFsm key = .done) ∧ i = commandInstr (keyCmd key) p) ∨
    (keyRst key = 0#1 ∧ keyFsm key = .run ∧ i = .round (keyCmd key) p) := by
  rcases Machine.rst_cases (keyRst key) with hrst | hrst
  · cases hfsm : keyFsm key with
    | idle =>
      rw [decodeKey_of_ready p hrst (.inl hfsm)] at h
      cases h
      exact .inr (.inl ⟨hrst, .inl rfl, rfl⟩)
    | done =>
      rw [decodeKey_of_ready p hrst (.inr hfsm)] at h
      cases h
      exact .inr (.inl ⟨hrst, .inr rfl, rfl⟩)
    | run =>
      rw [decodeKey_of_run p hrst hfsm] at h
      cases h
      exact .inr (.inr ⟨hrst, rfl, rfl⟩)
    | unreachable =>
      rw [decodeKey_of_unreachable p hrst hfsm] at h
      cases h
  · rw [decodeKey_of_rst p hrst] at h
    cases h
    exact .inl ⟨hrst, rfl⟩

/-! The rows of the key table, match and mask, by the fields of the keys in them (30_encoding.md R67). -/

theorem key_of_reset_row (h : key &&& 0b10000#5 = 0b10000#5) : keyRst key = 1#1 := by
  revert key; decide

theorem key_of_command_row {cmd : BitVec 2} (h : key &&& 0b10111#5 = cmd.setWidth 5) :
    keyRst key = 0#1 ∧ (keyFsm key = .idle ∨ keyFsm key = .done) ∧ keyCmd key = cmd := by
  revert key cmd; decide

theorem key_of_round_row (h : key &&& 0b11100#5 = 0b00100#5) : keyRst key = 0#1 ∧ keyFsm key = .run := by
  revert key; decide

theorem key_of_unreachable_keys (h : key &&& 0b11100#5 = 0b01100#5) :
    keyRst key = 0#1 ∧ keyFsm key = .unreachable := by
  revert key; decide

/-- One argument for the four command rows. -/
theorem decodeKey_of_command_row {cmd : BitVec 2} (h : key &&& 0b10111#5 = cmd.setWidth 5) :
    decodeKey key p = .ok (commandInstr cmd p) := by
  obtain ⟨hrst, hfsm, rfl⟩ := key_of_command_row h
  exact decodeKey_of_ready p hrst hfsm

end

theorem rceKey_fsmBits (rst : BitVec 1) (fsm : Fsm) (cmd : BitVec 2) :
    (rceKey rst fsm cmd).extractLsb' 2 2 = fsm.bits := by
  cases fsm <;> revert rst cmd <;> decide

end Sys2Proof

namespace Sys2Proof.Machine

theorem runDrive_of_decode_ok {s : State} {d : Drive} {i : Instr} (h : decode (s.portWord d) = .ok i) :
    runDrive d s = exec i s := by
  simp [runDrive, h]

theorem runDrive_of_decode_error {s : State} {d : Drive} {e : DecodeError} (h : decode (s.portWord d) = .error e) :
    runDrive d s = .refused (refusalOf e) := by
  simp [runDrive, h]

theorem State.nextDrive_nil {s : State} (h : s.host = []) :
    s.nextDrive = (Config.freeDrive s.stream s.draws, { s with draws := s.draws + 1 }) := by
  simp [State.nextDrive, h]

/-- A command other than NOP overwrites `fsm`, so it does the same whatever `fsm` was. -/
theorem Hardware.command_with_fsm (m : Hardware) (f : Fsm) {cmd : BitVec 2} (p : EdgePorts) (h : cmd ≠ cmdNop) :
    ({ m with fsm := f } : Hardware).command cmd p = m.command cmd p := by
  rcases cmd_cases cmd with rfl | rfl | rfl | rfl
  · exact absurd rfl h
  · simp only [Hardware.command_load]; rfl
  · simp only [Hardware.command_start]; rfl
  · simp only [Hardware.command_loadstart]; rfl

/-- The ROM answers what the MFU answers under the same code, whatever stands on `mix_y` and `mix_z`
(30_encoding.md R65). -/
theorem romRead_eq_mfuResult (sel : BitVec 2) (idx : BitVec 12) (y z : Word) :
    romRead (romAddr sel idx) = mfuResult (0#1 ++ sel) (zext32 idx) y z := by
  rw [romRead_romAddr]
  rcases tblSel_cases sel with rfl | rfl | rfl | rfl <;> rfl

end Sys2Proof.Machine
end

section
/-!
SUPPORT. Edges in RUN applied in order up to round 63 (42_round.md R117, R120), and the edges of COMPRESS
(30_encoding.md R72) as such edges.
-/

namespace Sys2Proof.Machine

/-- The hardware after the edges `es`, a command and its data inputs each, which RUN finds at round `ctr` and which
go no further than round 63. -/
def Hardware.afterEdges (m : Hardware) (es : List (BitVec 2 × EdgePorts)) : Hardware :=
  { m with
    regs := rounds m.regs (es.map fun e => (e.2.k, e.2.w))
    ctr := BitVec.ofNat 6 (m.ctr.toNat + es.length)
    fsm := if m.ctr.toNat + es.length = 64 then .done else .run
    err := m.err || es.any fun e => e.1 != cmdNop }

theorem Hardware.afterEdges_nil {m : Hardware} (h : m.fsm = .run) : m.afterEdges [] = m := by
  have hctr : m.ctr.toNat ≠ 64 := Nat.ne_of_lt m.ctr.isLt
  ext <;> simp [Hardware.afterEdges, h, hctr]

theorem Hardware.afterEdges_last {m : Hardware} (h : m.ctr = 63#6) (cmd : BitVec 2) (p : EdgePorts) :
    m.afterEdges [(cmd, p)] = m.applyRound cmd p := by
  ext <;> simp [Hardware.afterEdges, Hardware.applyRound, h, errAfterRound_eq]

theorem toNat_ctrAfterRound {c : BitVec 6} (h : c ≠ 63#6) : (ctrAfterRound c).toNat = c.toNat + 1 := by
  rw [ctrAfterRound_of_ne h]
  bv_omega

/-- Before round 63 the first edge is a round and the others follow it. -/
theorem Hardware.afterEdges_cons {m : Hardware} (h : m.ctr ≠ 63#6) (cmd : BitVec 2) (p : EdgePorts)
    (es : List (BitVec 2 × EdgePorts)) : m.afterEdges ((cmd, p) :: es) = (m.applyRound cmd p).afterEdges es := by
  have hlen : m.ctr.toNat + (es.length + 1) = m.ctr.toNat + 1 + es.length := by omega
  simp [Hardware.afterEdges, Hardware.applyRound, toNat_ctrAfterRound h, errAfterRound_eq, Bool.or_assoc, hlen]

/-- From RUN the edges up to round 63 apply their rounds in order, by induction on the edges. -/
theorem runDrives_edges (es : List (BitVec 2 × EdgePorts)) {s : State} (hf : s.fsm = .run)
    (hlen : s.ctr.toNat + es.length ≤ 64) :
    runDrives (es.map fun e => .edge 0#1 e.1 e.2) s = .next { s with toHardware := s.afterEdges es } := by
  induction es generalizing s with
  | nil => rw [Hardware.afterEdges_nil hf]; rfl
  | cons e es ih =>
    obtain ⟨cmd, p⟩ := e
    rw [List.map_cons, runDrives_cons s _ (runDrive_edge_run s cmd p hf)]
    rw [List.length_cons] at hlen
    by_cases hlast : s.ctr = 63#6
    · have hnil : es = [] := List.eq_nil_of_length_eq_zero (by simp [hlast] at hlen; omega)
      rw [hnil, Hardware.afterEdges_last hlast]
      rfl
    · rw [Hardware.afterEdges_cons hlast]
      refine ih (fsmAfterRound_of_ne hlast) ?_
      simp only [Hardware.applyRound_ctr, toNat_ctrAfterRound hlast]
      omega

/-- The edge of a `NOP` line with these K and w words. -/
def Trace.nopEdge (kw : Word × Word) : BitVec 2 × EdgePorts := (cmdNop, { cv := 0, k := kw.1, w := kw.2 })

theorem Trace.nop_eq_edge (kw : Word × Word) :
    Trace.nop kw.1 kw.2 = .edge 0#1 (Trace.nopEdge kw).1 (Trace.nopEdge kw).2 := rfl

/-- From round 0, 64 NOP edges end the compression and leave `err`. -/
theorem Hardware.afterEdges_nops {m : Hardware} {kws : List (Word × Word)} (hctr : m.ctr = 0) (hlen : kws.length = 64) :
    m.afterEdges (kws.map Trace.nopEdge) = { m with regs := rounds m.regs kws, ctr := 0, fsm := .done } := by
  simp [Hardware.afterEdges, Trace.nopEdge, Function.comp_def, hctr, hlen]

theorem Trace.length_schedule (K w : Vector Word 64) : (Trace.schedule K w).length = 64 := by
  simp [Trace.schedule]

theorem Trace.length_compress (cv : CvBus) (K w : Vector Word 64) : (Trace.compress cv K w).length = 65 := by
  simp [Trace.compress, Trace.length_schedule]

/-- COMPRESS as a sequence of drives: LOADSTART, then the 64 rounds. -/
theorem runDrives_compress {s : State} (hf : s.fsm = .idle ∨ s.fsm = .done) (cv : CvBus) (K w : Vector Word 64) :
    runDrives (Trace.compress cv K w) s = .next { s with
      regs := rounds (unpack cv) (Trace.schedule K w)
      regsDefined := true
      ctr := 0
      fsm := .done } := by
  have hedges : (Trace.schedule K w).map (fun kw => Trace.nop kw.1 kw.2) =
      ((Trace.schedule K w).map Trace.nopEdge).map (fun e => .edge 0#1 e.1 e.2) := by
    simp [Trace.nop_eq_edge]
  have hload := runDrive_edge_ready s cmdLoadstart { cv := cv, k := 0, w := 0 } hf
  rw [Hardware.command_loadstart] at hload
  rw [Trace.compress, Trace.loadstart, runDrives_cons s _ hload, hedges,
    runDrives_edges _ rfl (by simp [Trace.length_schedule]),
    Hardware.afterEdges_nops rfl (Trace.length_schedule K w)]
  rfl

end Sys2Proof.Machine
end

section
/-!
The statements of 30_encoding.md, each settled from the lemmas above.
-/

namespace Sys2Proof.Proofs

open Sys2Proof.Machine Sys2Proof.Safety

/-- Settles O1, operation by operation; only the reserved select and the ROUND key carry an operand's bits. -/
theorem decodeOfEncodeIsTheOperation : Obligations.DecodeOfEncodeIsTheOperation := by
  intro i
  cases i with
  | mixReserved low x y z => exact congrArg Except.ok (decodeMix_reserved low x y z)
  | round cmd p =>
    rw [encode_round]
    exact decodeKey_run cmd p
  | _ => rfl

/-- Settles O2: a select comes back whole, and a key by the case of its fields. -/
theorem encodeOfDecodeKeepsTheFixedBits : Obligations.EncodeOfDecodeKeepsTheFixedBits := by
  refine ⟨fun op x y z i h => ?_, fun sel idx i h => ?_, fun key p i h => ?_⟩
  · cases h
    exact encode_decodeMix op x y z
  · cases h
    exact encode_decodeTbl sel idx
  · rcases decodeKey_ok_cases h with ⟨hrst, rfl⟩ | ⟨hrst, hfsm, rfl⟩ | ⟨hrst, hfsm, rfl⟩
    · exact ⟨_, encode_reset p, by rw [keyRst_rceKey, hrst], by simp [hrst]⟩
    · have hrun : keyFsm key ≠ .run := by rcases hfsm with hfsm | hfsm <;> simp [hfsm]
      refine ⟨_, encode_commandInstr _ p, by rw [keyRst_rceKey, hrst], fun _ => ⟨keyCmd_rceKey _ _ _, ?_⟩⟩
      simp [keyFsm_rceKey, hrun]
    · refine ⟨_, encode_round _ p, by rw [keyRst_rceKey, hrst], fun _ => ⟨keyCmd_rceKey _ _ _, ?_⟩⟩
      simp [keyFsm_rceKey, hfsm]

/-- Settles O3: an edge's key holds `fsm` and the row tables' keys are known by their fields; a command other than
NOP overwrites the control state, which is all that IDLE and DONE differ in. -/
theorem rceKeyDecodesByTheRowTable : Obligations.RceKeyDecodesByTheRowTable := by
  refine ⟨fun s rst cmd p => ?_, fun key p => ?_, fun s cmd p hcmd => ?_⟩
  · have hbits := rceKey_fsmBits rst s.fsm cmd
    refine ⟨rceKey rst s.fsm cmd, rfl, keyRst_rceKey _ _ _, keyCmd_rceKey _ _ _, fun h => ?_, fun h => ?_, fun h => ?_,
      fun h => ?_⟩ <;> rw [hbits, h] <;> rfl
  · refine ⟨fun h => decodeKey_of_rst p (key_of_reset_row h), fun h => decodeKey_of_command_row (cmd := cmdNop) p h,
      fun h => decodeKey_of_command_row (cmd := cmdLoad) p h, fun h => decodeKey_of_command_row (cmd := cmdStart) p h,
      fun h => decodeKey_of_command_row (cmd := cmdLoadstart) p h, fun h => ?_, fun h => ?_⟩
    · obtain ⟨hrst, hfsm⟩ := key_of_round_row h
      exact decodeKey_of_run p hrst hfsm
    · obtain ⟨hrst, hfsm⟩ := key_of_unreachable_keys h
      exact decodeKey_of_unreachable p hrst hfsm
  · rw [runDrive_edge_ready _ cmd p (.inl rfl), runDrive_edge_ready _ cmd p (.inr rfl)]
    simp only [Hardware.command_with_fsm _ _ p hcmd]

/-- Settles O5: the ROM's word at `sel ‖ idx` is the MFU's result under `0 ‖ sel`. -/
theorem tblSelectUsesTheMixCode : Obligations.TblSelectUsesTheMixCode := by
  refine ⟨fun idx => ⟨rfl, rfl, rfl, rfl⟩, fun sel idx y z s hrom => ?_⟩
  refine ⟨_, _, runDrive_tbl_present sel idx hrom, runDrive_mix_mfu s _ _ y z, ?_⟩
  simp [Hardware.tblQ, Hardware.mixR, hrom, romRead_eq_mfuResult sel idx y z, zext32]

/-- Settles O59: the run of the closed machine is `runDrives` of COMPRESS, which waits in its list. -/
theorem compressRunsTheSixtyFourRounds : Obligations.CompressRunsTheSixtyFourRounds := by
  intro s cv K w rest hf hhost
  have hs : s = s.withHost (Trace.compress cv K w ++ rest) := by rw [← hhost]; rfl
  have hrun := run_withHost_append (Trace.compress cv K w) rest s
  rw [← hs, Trace.length_compress, runDrives_compress hf] at hrun
  exact hrun

/-- Settles O4, by evaluating the eight selects. -/
theorem mixSelectTable : Obligations.MixSelectTable := by
  intro x y z s
  refine ⟨rfl, rfl, rfl, rfl, rfl, rfl, rfl, rfl, ?_, ?_, ?_, ?_, ?_, ?_, fun low => ?_⟩ <;> exact ⟨_, rfl, rfl, rfl⟩

/-- Settles O6, by evaluating the written-out words. -/
theorem writtenOutWordsDecode : Obligations.WrittenOutWordsDecode :=
  ⟨rfl, rfl, rfl, fun _ => rfl, fun _ => rfl, fun _ => rfl, fun _ => rfl⟩

/-- Settles O31: every RCE operation but RESET is an edge with `rst = 0`, which `fsm = 11` refuses. -/
theorem unreachableFsmIsRefusedByName : Obligations.UnreachableFsmIsRefusedByName := by
  intro p s h
  have hrefused : ∀ cmd ready, s.onHardware (fun m => m.edge cmd p ready) = .refused .unreachableFsm :=
    fun _ _ => State.onHardware_of_refused (Hardware.edge_unreachable h)
  exact ⟨hrefused _ _, hrefused _ _, hrefused _ _, hrefused _ _, fun _ => hrefused _ _, _, exec_reset p s, rfl⟩

/-- Settles O39: a step runs the first waiting drive, or a free one, and a drive runs what it decodes to. -/
theorem stepRunsTheDecodedDrive : Obligations.StepRunsTheDecodedDrive := by
  refine ⟨fun s d rest i hhost hdec => ?_, fun s d rest e hhost hdec => ?_, fun s hhost => ?_,
    fun _ _ _ _ _ _ _ => ⟨rfl, rfl⟩⟩
  · rw [step_of_host s hhost]
    exact runDrive_of_decode_ok hdec
  · rw [step_of_host s hhost]
    cases e
    exact runDrive_of_decode_error hdec
  · exact ⟨_, by rw [step, State.nextDrive_nil hhost]⟩

end Sys2Proof.Proofs
end

-- Proofs of the statements about the mixing functions and the MIX port (40_mixing.md).
section
/-!
SUPPORT. Rotation as addition of its amounts modulo 32, the linearity of the mixing functions, and Ch and Maj read
bit by bit (40_mixing.md R80, R87, R88, R92).
-/

namespace Sys2Proof.Machine

/-! Rotations add up modulo 32. -/

theorem rotr_bit (x : Word) {n i : Nat} (hn : n < 32) (hi : i < 32) :
    (rotr x n).getLsbD i = x.getLsbD ((i + n) % 32) := by
  rw [rotr_eq_rotateRight x hn, BitVec.getLsbD_rotateRight, Nat.mod_eq_of_lt hn]
  by_cases hlow : i < 32 - n
  · have hidx : (i + n) % 32 = n + i := by omega
    simp [hlow, hidx]
  · have hidx : (i + n) % 32 = i - (32 - n) := by omega
    simp [hlow, hi, hidx]

@[simp] theorem rotr_zero (x : Word) : rotr x 0 = x := by
  apply BitVec.eq_of_getLsbD_eq
  intro i hi
  rw [rotr_bit x (by decide) hi, Nat.add_zero, Nat.mod_eq_of_lt hi]

theorem rotr_rotr (x : Word) {m n : Nat} (hm : m < 32) (hn : n < 32) :
    rotr (rotr x m) n = rotr x ((m + n) % 32) := by
  have hmod : ∀ k, k % 32 < 32 := fun k => Nat.mod_lt k (by decide)
  apply BitVec.eq_of_getLsbD_eq
  intro i hi
  have hidx : ((i + n) % 32 + m) % 32 = (i + (m + n) % 32) % 32 := by omega
  rw [rotr_bit _ hn hi, rotr_bit x hm (hmod _), rotr_bit x (hmod _) hi, hidx]

theorem rotr_iterate (x : Word) {n : Nat} (hn : n < 32) (k : Nat) :
    (fun v => rotr v n)^[k] x = rotr x (k * n % 32) := by
  induction k with
  | zero => simp
  | succ k ih =>
    have hsum : (k * n % 32 + n) % 32 = (k + 1) * n % 32 := by rw [Nat.mod_add_mod, Nat.succ_mul]
    rw [Function.iterate_succ_apply', ih, rotr_rotr x (Nat.mod_lt _ (by decide)) hn, hsum]

/-- The amount of a whole period is the least common multiple of 32 and `n`. -/
theorem rotr_period (x : Word) {n : Nat} (hn : n < 32) : (fun v => rotr v n)^[32 / Nat.gcd 32 n] x = x := by
  have hlcm : 32 / Nat.gcd 32 n * n = Nat.lcm 32 n := Nat.div_mul_right_comm (Nat.gcd_dvd_left 32 n) n
  rw [rotr_iterate x hn, hlcm, Nat.mod_eq_zero_of_dvd (Nat.dvd_lcm_left 32 n), rotr_zero]

/-! Rotations and shifts are linear over XOR, so the mixing functions are. -/

theorem bsig0_xor (x y : Word) : bsig0 (x ^^^ y) = bsig0 x ^^^ bsig0 y := by
  simp only [bsig0, rotr_xor]
  ac_rfl

theorem bsig1_xor (x y : Word) : bsig1 (x ^^^ y) = bsig1 x ^^^ bsig1 y := by
  simp only [bsig1, rotr_xor]
  ac_rfl

theorem ssig0_xor (x y : Word) : ssig0 (x ^^^ y) = ssig0 x ^^^ ssig0 y := by
  simp only [ssig0, rotr_xor, shr_xor]
  ac_rfl

theorem ssig1_xor (x y : Word) : ssig1 (x ^^^ y) = ssig1 x ^^^ ssig1 y := by
  simp only [ssig1, rotr_xor, shr_xor]
  ac_rfl

/-- A function that is linear over XOR maps 0 to 0. -/
theorem map_zero_of_xor {f : Word → Word} (h : ∀ x y, f (x ^^^ y) = f x ^^^ f y) : f 0 = 0 := by
  simpa using h 0 0

/-! Ch chooses each bit, so at most one of its two terms has a 1 there. -/

theorem ch_terms_disjoint (e f g : Word) (i : Nat) : ¬ ((e &&& f).getLsbD i ∧ (~~~e &&& g).getLsbD i) := by
  cases he : e.getLsbD i <;> simp [he]

theorem ch_eq_or (e f g : Word) : ch e f g = (e &&& f) ||| (~~~e &&& g) := by
  apply BitVec.eq_of_getLsbD_eq
  intro i hi
  rw [ch_bit e f g i hi, BitVec.getLsbD_or, BitVec.getLsbD_and, BitVec.getLsbD_and, BitVec.getLsbD_not]
  cases e.getLsbD i <;> simp [hi]

theorem ch_allOnes (f g : Word) : ch (BitVec.allOnes 32) f g = f := by
  rw [ch, BitVec.allOnes_and, BitVec.not_allOnes, BitVec.zero_and, BitVec.xor_zero]

theorem ch_zero (f g : Word) : ch 0#32 f g = g := by
  rw [ch, BitVec.not_zero, BitVec.zero_and, BitVec.allOnes_and, BitVec.zero_xor]

theorem ch_self_left (x z : Word) : ch x x z = x ||| z := by
  apply BitVec.eq_of_getLsbD_eq
  intro i hi
  rw [ch_bit x x z i hi, BitVec.getLsbD_or]
  cases x.getLsbD i <;> rfl

theorem ch_self_right (x y : Word) : ch x y x = x &&& y := by
  apply BitVec.eq_of_getLsbD_eq
  intro i hi
  rw [ch_bit x y x i hi, BitVec.getLsbD_and]
  cases x.getLsbD i <;> rfl

/-! Maj is the majority of three bits, whatever their order. -/

theorem maj_bit_majority (a b c : Word) (i : Nat) :
    (maj a b c).getLsbD i =
      decide (2 ≤ (a.getLsbD i).toNat + (b.getLsbD i).toNat + (c.getLsbD i).toNat) := by
  rw [maj_bit]
  generalize a.getLsbD i = p, b.getLsbD i = q, c.getLsbD i = r
  revert p q r
  decide

theorem maj_swap_left (a b c : Word) : maj a b c = maj b a c := by
  apply BitVec.eq_of_getLsbD_eq
  intro i _
  rw [maj_bit_majority, maj_bit_majority, Nat.add_comm (a.getLsbD i).toNat]

theorem maj_swap_right (a b c : Word) : maj a b c = maj a c b := by
  apply BitVec.eq_of_getLsbD_eq
  intro i _
  rw [maj_bit_majority, maj_bit_majority, Nat.add_right_comm]

theorem maj_self (x z : Word) : maj x x z = x := by
  simp [maj]

/-! `mix_err` is read off the select (40_mixing.md R90). -/

theorem mfuErr_iff (op : BitVec 3) : mfuErr op = true ↔ op.extractLsb' 1 2 = 0b11#2 := by
  simp [mfuErr]

end Sys2Proof.Machine
end

section
/-!
The statements of 40_mixing.md, each settled from the lemmas above.
-/

namespace Sys2Proof.Proofs

open Sys2Proof.Machine

/-- Settles O7, by the bit of a rotation on each side of the wrap. -/
theorem rotrMovesEveryBit : Obligations.RotrMovesEveryBit :=
  ⟨fun x _ _ hn => ⟨rfl, fun _ hi => rotr_bit x hn hi⟩, by decide⟩

/-- Settles O8: a bit above bit 31 is 0. -/
theorem shrFillsWithZero : Obligations.ShrFillsWithZero := by
  intro x n i _
  rw [shr_bit, Nat.add_comm n i]
  split
  · rfl
  · exact BitVec.getLsbD_of_ge x (i + n) (by omega)

/-- Settles O9: the functions inherit linearity from rotation and shift, and rotation amounts add up modulo 32. -/
theorem mixingFunctionLaws : Obligations.MixingFunctionLaws := by
  refine ⟨fun x y => ⟨bsig0_xor x y, bsig1_xor x y, ssig0_xor x y, ssig1_xor x y⟩,
    ⟨map_zero_of_xor bsig0_xor, map_zero_of_xor bsig1_xor, map_zero_of_xor ssig0_xor, map_zero_of_xor ssig1_xor⟩,
    fun x n _ hn => rotr_period x hn, fun x m n _ hm _ hn => ?_, by decide⟩
  rw [rotr_rotr x hm hn]
  split
  case isTrue hwrap => rw [hwrap, rotr_zero]
  case isFalse => rfl

/-- Settles O10, from the meaning of the operation and the linearity of Σ0. -/
theorem mixBsig0FollowsItsRule : Obligations.MixBsig0FollowsItsRule :=
  ⟨fun _ _ _ => rfl, fun _ _ _ _ => rfl, fun _ => rfl, map_zero_of_xor bsig0_xor, by decide, bsig0_xor, by decide⟩

/-- Settles O11, from the meaning of the operation and the linearity of Σ1. -/
theorem mixBsig1FollowsItsRule : Obligations.MixBsig1FollowsItsRule :=
  ⟨fun _ _ _ => rfl, fun _ _ _ _ => rfl, fun _ => rfl, map_zero_of_xor bsig1_xor, by decide, by decide⟩

/-- Settles O12, from the meaning of the operation and the linearity of σ0. -/
theorem mixSsig0FollowsItsRule : Obligations.MixSsig0FollowsItsRule :=
  ⟨fun _ _ _ => rfl, fun _ _ _ _ => rfl, fun _ => rfl, map_zero_of_xor ssig0_xor, by decide, by decide⟩

/-- Settles O13, from the meaning of the operation and the linearity of σ1. -/
theorem mixSsig1FollowsItsRule : Obligations.MixSsig1FollowsItsRule :=
  ⟨fun _ _ _ => rfl, fun _ _ _ _ => rfl, fun _ => rfl, map_zero_of_xor ssig1_xor, by decide, by decide⟩

/-- Settles O14, from the choice that Ch makes at each bit. -/
theorem mixChFollowsItsRule : Obligations.MixChFollowsItsRule :=
  ⟨fun _ _ _ => rfl, fun _ _ _ _ => rfl, fun e f g => ⟨rfl, ch_eq_or e f g⟩, ch_bit, ch_terms_disjoint,
    fun f g => ⟨ch_allOnes f g, ch_zero f g⟩, ch_self_left, ch_self_right, by decide⟩

/-- Settles O15, from the majority of three bits, which their order does not change. -/
theorem mixMajFollowsItsRule : Obligations.MixMajFollowsItsRule :=
  ⟨fun _ _ _ => rfl, fun _ _ _ _ => rfl, fun _ _ _ => rfl, maj_bit_majority,
    fun a b c => ⟨maj_swap_left a b c, maj_swap_right a b c⟩, maj_self, by decide⟩

/-- Settles O16: a drive after a reserved select answers as from any state, `mix_err` by its own select alone. -/
theorem mixReservedFollowsItsRule : Obligations.MixReservedFollowsItsRule :=
  ⟨fun _ _ _ => ⟨rfl, rfl⟩, fun _ _ _ _ _ => rfl, fun s => ⟨_, runDrive_mix_mfu s _ _ _ _, rfl, rfl⟩,
    fun _ _ _ _ _ t op x' y' z' _ => ⟨_, runDrive_mix_mfu t op x' y' z', mfuErr_iff op⟩⟩

/-- Settles O17: the MIX port answers with the MFU's function of its inputs, select by select. -/
theorem mixPortIsAFunctionOfItsInputs : Obligations.MixPortIsAFunctionOfItsInputs :=
  fun op x y z s => runDrive_mix_mfu s op x y z

end Sys2Proof.Proofs
end

-- Proofs of the statements about the tables and the ROM port (41_tables.md).
section
/-!
SUPPORT. The table of each select as its function of the widened index (41_tables.md R100 to R104), and an
operation seen from a core that has the ROM (R107).
-/

namespace Sys2Proof.Machine

/-! The four tables. -/

theorem romRead_bsig0 (idx : BitVec 12) : romRead (romAddr 0b00#2 idx) = bsig0 (zext32 idx) :=
  romRead_romAddr 0b00#2 idx

theorem romRead_bsig1 (idx : BitVec 12) : romRead (romAddr 0b01#2 idx) = bsig1 (zext32 idx) :=
  romRead_romAddr 0b01#2 idx

theorem romRead_ssig0 (idx : BitVec 12) : romRead (romAddr 0b10#2 idx) = ssig0 (zext32 idx) :=
  romRead_romAddr 0b10#2 idx

theorem romRead_ssig1 (idx : BitVec 12) : romRead (romAddr 0b11#2 idx) = ssig1 (zext32 idx) :=
  romRead_romAddr 0b11#2 idx

/-- With the ROM a TBL operation puts the word at its address on the ROM port and changes nothing else. -/
theorem exec_decodeTbl_present {s : State} {sel : BitVec 2} {idx : BitVec 12} {q : Word}
    (hq : romRead (romAddr sel idx) = q) (hrom : s.cfg.hasTables = true) :
    exec (decodeTbl sel idx) s = .next { s with tbl := { sel := sel, idx := idx, q := q } } := by
  subst hq
  exact runDrive_tbl_present sel idx hrom

/-- Without the ROM every TBL operation is refused by name. -/
theorem exec_decodeTbl_absent {s : State} (hrom : s.cfg.hasTables = false) (sel : BitVec 2) (idx : BitVec 12) :
    exec (decodeTbl sel idx) s = .refused .noTables :=
  (runDrive_tbl_lookup s sel idx).trans (State.onHardware_lookup_absent hrom)

/-! An operation of the MIX port or of the RCE does not look at `HAS_TABLES` (41_tables.md R107). -/

/-- The hardware in a core with the ROM. -/
def Hardware.withRom (m : Hardware) : Hardware := { m with cfg := { hasTables := true } }

/-- The state in a core with the ROM. -/
def State.withRom (s : State) : State := { s with toHardware := s.toHardware.withRom }

theorem Hardware.command_withRom (m : Hardware) (cmd : BitVec 2) (p : EdgePorts) :
    m.withRom.command cmd p = (m.command cmd p).withRom := by
  rcases cmd_cases cmd with rfl | rfl | rfl | rfl
  · simp only [Hardware.command_nop]
  · simp only [Hardware.command_load]; rfl
  · simp only [Hardware.command_start]; rfl
  · simp only [Hardware.command_loadstart]; rfl

theorem State.onHardware_edge_unreachable {s : State} {cmd : BitVec 2} {p : EdgePorts} {ready : Hardware → Hardware}
    (h : s.fsm = .unreachable) : s.onHardware (fun m => m.edge cmd p ready) = .refused .unreachableFsm :=
  State.onHardware_of_refused (Hardware.edge_unreachable h)

/-- An edge commutes with adding the ROM when what it does outside RUN does. -/
theorem State.onHardware_edge_withRom (s : State) (cmd : BitVec 2) (p : EdgePorts) {ready : Hardware → Hardware}
    (hready : ∀ m : Hardware, ready m.withRom = (ready m).withRom) :
    s.withRom.onHardware (fun m => m.edge cmd p ready) =
      mapNext State.withRom (s.onHardware (fun m => m.edge cmd p ready)) := by
  have hcases : (s.fsm = .idle ∨ s.fsm = .done) ∨ s.fsm = .run ∨ s.fsm = .unreachable := by
    cases s.fsm <;> simp
  rcases hcases with hf | hf | hf
  · rw [State.onHardware_edge_ready hf, State.onHardware_edge_ready (s := s.withRom) hf]
    exact congrArg (fun m => Host.Outcome.next { s with toHardware := m }) (hready s.toHardware)
  · rw [State.onHardware_edge_run hf, State.onHardware_edge_run (s := s.withRom) hf]
    rfl
  · rw [State.onHardware_edge_unreachable hf, State.onHardware_edge_unreachable (s := s.withRom) hf]
    rfl

/-- An operation that a core without the ROM has does the same in one with the ROM. -/
theorem exec_withRom {i : Instr} {s : State} (hrom : s.cfg.hasTables = false) (hwf : i.wf s.cfg = true) :
    exec i s.withRom = mapNext State.withRom (exec i s) := by
  cases i with
  | mixBsig0 | mixBsig1 | mixSsig0 | mixSsig1 | mixCh | mixMaj | mixReserved => rfl
  | tblBsig0 | tblBsig1 | tblSsig0 | tblSsig1 => exact absurd (hrom.symm.trans hwf) Bool.false_ne_true
  | reset => rfl
  | nop p => exact s.onHardware_edge_withRom cmdNop p fun _ => rfl
  | load p => exact s.onHardware_edge_withRom cmdLoad p fun _ => rfl
  | start p => exact s.onHardware_edge_withRom cmdStart p fun _ => rfl
  | loadstart p => exact s.onHardware_edge_withRom cmdLoadstart p fun _ => rfl
  | round cmd p => exact s.onHardware_edge_withRom cmd p fun m => m.command_withRom cmd p

end Sys2Proof.Machine
end

section
/-!
The statements of 41_tables.md, each settled from the lemmas above.
-/

namespace Sys2Proof.Proofs

open Sys2Proof.Machine

/-- Settles O23: each pair of operations is one select of the code that the ROM and the MIX port share, for which
O5 has the agreement. -/
theorem tableAndFormulaAgree : Obligations.TableAndFormulaAgree := by
  intro idx y z s hrom
  obtain ⟨-, hagree⟩ := tblSelectUsesTheMixCode
  have hsel := fun sel => hagree sel idx y z s hrom
  exact ⟨hsel 0b00#2, hsel 0b01#2, hsel 0b10#2, hsel 0b11#2⟩

/-- Settles O24: without the ROM its operations are refused, and every other operation commutes with adding it. -/
theorem withoutTheRomOnlyTblGoes : Obligations.WithoutTheRomOnlyTblGoes := by
  intro s hrom
  have habsent := exec_decodeTbl_absent hrom
  refine ⟨by simp [Hardware.tblQ, hrom], fun idx => ?_, fun i hwf => (exec_withRom hrom hwf).trans ?_⟩
  · exact ⟨habsent 0b00#2 idx, habsent 0b01#2 idx, habsent 0b10#2 idx, habsent 0b11#2 idx⟩
  · cases exec i s <;> rfl

/-- Settles O18, from the table of select 00; its entry at index 0 is 0 by the linearity of Σ0. -/
theorem tblBsig0FollowsItsRule : Obligations.TblBsig0FollowsItsRule :=
  ⟨fun _ => rfl, fun idx _ hrom => exec_decodeTbl_present (romRead_bsig0 idx) hrom, romRead_bsig0,
    (romRead_bsig0 0).trans (map_zero_of_xor bsig0_xor), by decide, by decide, by decide⟩

/-- Settles O19, from the table of select 01; its entry at index 0 is 0 by the linearity of Σ1. -/
theorem tblBsig1FollowsItsRule : Obligations.TblBsig1FollowsItsRule :=
  ⟨fun _ => rfl, fun idx _ hrom => exec_decodeTbl_present (romRead_bsig1 idx) hrom,
    (romRead_bsig1 0).trans (map_zero_of_xor bsig1_xor), by decide, by decide⟩

/-- Settles O20, from the table of select 10; its entry at index 0 is 0 by the linearity of σ0. -/
theorem tblSsig0FollowsItsRule : Obligations.TblSsig0FollowsItsRule :=
  ⟨fun _ => rfl, fun idx _ hrom => exec_decodeTbl_present (romRead_ssig0 idx) hrom,
    (romRead_ssig0 0).trans (map_zero_of_xor ssig0_xor), by decide, by decide⟩

/-- Settles O21, from the table of select 11; its entry at index 0 is 0 by the linearity of σ1. -/
theorem tblSsig1FollowsItsRule : Obligations.TblSsig1FollowsItsRule :=
  ⟨fun _ => rfl, fun idx _ hrom => exec_decodeTbl_present (romRead_ssig1 idx) hrom,
    (romRead_ssig1 0).trans (map_zero_of_xor ssig1_xor), by decide, by decide⟩

end Sys2Proof.Proofs
end

-- Proofs of the statements about the round and the control of the engine (42_round.md).
section
/-!
SUPPORT. What each RCE operation answers in the control states its key names (42_round.md R113 to R117), an edge as
its operation (R112), and what of an edge the control sees (R119).
-/

namespace Sys2Proof.Machine

section
variable {s : State}

/-! The operations outside RUN and in RUN. -/

theorem exec_nop_ready (p : EdgePorts) (h : s.fsm = .idle ∨ s.fsm = .done) : exec (.nop p) s = .next s :=
  State.onHardware_edge_ready h

theorem exec_load_ready (p : EdgePorts) (h : s.fsm = .idle ∨ s.fsm = .done) :
    exec (.load p) s = .next { s with toHardware := (s.loadRegs p.cv).enter .idle } :=
  State.onHardware_edge_ready h

theorem exec_start_ready (p : EdgePorts) (h : s.fsm = .idle ∨ s.fsm = .done) :
    exec (.start p) s = .next { s with toHardware := s.enter .run } :=
  State.onHardware_edge_ready h

theorem exec_loadstart_ready (p : EdgePorts) (h : s.fsm = .idle ∨ s.fsm = .done) :
    exec (.loadstart p) s = .next { s with toHardware := (s.loadRegs p.cv).enter .run } :=
  State.onHardware_edge_ready h

theorem exec_round_run (cmd : BitVec 2) (p : EdgePorts) (h : s.fsm = .run) :
    exec (.round cmd p) s = .next { s with toHardware := s.applyRound cmd p } :=
  State.onHardware_edge_run h

/-! An edge as its operation (42_round.md R112). -/

/-- Outside RUN an edge with `rst = 0` is the operation that its command selects. -/
theorem runDrive_edge_commandInstr (cmd : BitVec 2) (p : EdgePorts) (h : s.fsm = .idle ∨ s.fsm = .done) :
    runDrive (.edge 0#1 cmd p) s = exec (commandInstr cmd p) s :=
  runDrive_of_decode_ok (decodeKey_command h cmd p)

/-- ROUND is the edge with its command in every control state, though the decoder gives it in RUN only (log 11). -/
theorem exec_round_eq_runDrive (cmd : BitVec 2) (p : EdgePorts) (s : State) :
    exec (.round cmd p) s = runDrive (.edge 0#1 cmd p) s :=
  (runDrive_edge_zero s cmd p).symm

theorem exec_round_ready (cmd : BitVec 2) (p : EdgePorts) (h : s.fsm = .idle ∨ s.fsm = .done) :
    exec (.round cmd p) s = exec (commandInstr cmd p) s :=
  (exec_round_eq_runDrive cmd p s).trans (runDrive_edge_commandInstr cmd p h)

theorem exec_commandInstr (cmd : BitVec 2) (p : EdgePorts) (s : State) :
    exec (commandInstr cmd p) s =
      if cmd = cmdNop then exec (.nop p) s
      else if cmd = cmdLoad then exec (.load p) s
      else if cmd = cmdStart then exec (.start p) s
      else exec (.loadstart p) s := by
  rcases cmd_cases cmd with rfl | rfl | rfl | rfl <;> rfl

/-- The checked step of a ROUND faults while a..h hold no value (60_exceptions.md R142, log 3). -/
theorem checkedStep_uninit {cmd : BitVec 2} {p : EdgePorts} {rest : List Drive} (hf : s.fsm = .run)
    (hdef : s.regsDefined = false) (h : s.host = .edge 0#1 cmd p :: rest) :
    checkedStep s = .fault (.uninitRead .a) := by
  simp [checkedStep, State.nextDrive_cons s _ rest h, State.isRound, hf, hdef]

/-- Counted from round 0, the edges leave their own number in `ctr`. -/
theorem Hardware.afterEdges_of_ctr_zero {m : Hardware} (h : m.ctr = 0) (es : List (BitVec 2 × EdgePorts)) :
    m.afterEdges es = { m with
      regs := rounds m.regs (es.map fun e => (e.2.k, e.2.w))
      ctr := BitVec.ofNat 6 es.length
      fsm := if es.length = 64 then .done else .run
      err := m.err || es.any fun e => e.1 != cmdNop } := by
  simp [Hardware.afterEdges, h]

end

/-- All-zero words keep the all-zero state, however many rounds are applied (42_round.md R124). -/
theorem rounds_zero (n : Nat) : rounds RoundState.zero (List.replicate n (0, 0)) = RoundState.zero := by
  induction n with
  | zero => rfl
  | succ n ih => rw [List.replicate_succ, rounds_cons, roundFn_zero, ih]

end Sys2Proof.Machine

namespace Sys2Proof.Safety

open Sys2Proof.Machine

theorem StateInv.roundIdx_of_not_busy {s : State} (h : StateInv s) (hbusy : s.busy = false) : s.roundIdx = 0 := by
  obtain ⟨-, hctr, -, -⟩ := h
  exact hctr (by simpa [Hardware.busy] using hbusy)

/-! An edge's data does not reach the control (42_round.md R119). -/

section
variable {s s' : State} (h : SameControl s s') (cmd : BitVec 2) (p p' : EdgePorts)
include h

theorem SameControl.applyRound :
    SameControl { s with toHardware := s.applyRound cmd p } { s' with toHardware := s'.applyRound cmd p' } := by
  obtain ⟨-, hctr, herr⟩ := h
  exact ⟨congrArg fsmAfterRound hctr, congrArg ctrAfterRound hctr, congrArg (errAfterRound · cmd) herr⟩

theorem SameControl.command :
    SameControl { s with toHardware := s.command cmd p } { s' with toHardware := s'.command cmd p' } := by
  obtain ⟨hfsm, hctr, herr⟩ := h
  rcases cmd_cases cmd with rfl | rfl | rfl | rfl
  · simpa only [Hardware.command_nop] using And.intro hfsm ⟨hctr, herr⟩
  · simpa [SameControl, Hardware.command_load] using herr
  · simpa [SameControl, Hardware.command_start] using herr
  · simpa [SameControl, Hardware.command_loadstart] using herr

end

end Sys2Proof.Safety
end

section
/-!
The statements of 42_round.md, each settled from the lemmas above.
-/

namespace Sys2Proof.Proofs

open Sys2Proof.Machine Sys2Proof.Safety

/-- Settles O26: LOAD writes all eight registers, so `state_out` packs what it unpacked and a second LOAD leaves
nothing of the first. -/
theorem loadFollowsItsRule : Obligations.LoadFollowsItsRule := by
  refine ⟨fun p _ h => decodeKey_command h cmdLoad p, fun p s h => exec_load_ready p h, fun p s h => ?_,
    fun p s h hcv => ?_⟩
  · refine ⟨_, exec_load_ready p h, rfl, rfl, congrArg Except.ok (pack_unpack p.cv), fun q => ?_⟩
    exact (exec_load_ready q (.inl rfl)).trans (exec_load_ready q h).symm
  · exact ⟨_, exec_load_ready p h, rfl, rfl, (congrArg unpack hcv).trans (by decide)⟩

/-- Settles O27: START only enters RUN, and the round is the next edge's. -/
theorem startFollowsItsRule : Obligations.StartFollowsItsRule := by
  refine ⟨fun p _ h => decodeKey_command h cmdStart p, fun p s h => exec_start_ready p h, fun p s h => ?_,
    fun p s t cmd q rest h hdef hexec => ?_⟩
  · exact ⟨_, exec_start_ready p h, rfl, rfl, rfl, fun q => ⟨_, exec_round_run _ q rfl, rfl, rfl⟩⟩
  · rw [exec_start_ready p h] at hexec
    cases hexec
    exact ⟨_, checkedStep_uninit rfl hdef rfl⟩

/-- Settles O28: START after LOAD finds IDLE and enters RUN on the registers that LOAD wrote. -/
theorem loadstartFollowsItsRule : Obligations.LoadstartFollowsItsRule :=
  ⟨fun p _ h => decodeKey_command h cmdLoadstart p, fun p _ h => exec_loadstart_ready p h,
    fun p q _ h => ⟨_, _, exec_load_ready p h, exec_start_ready q (.inl rfl), exec_loadstart_ready p h, rfl, rfl⟩⟩

/-- Settles O29, from the round that an edge in RUN applies; the corner and the example are evaluated. -/
theorem roundFollowsItsRule : Obligations.RoundFollowsItsRule := by
  refine ⟨decodeKey_run, fun cmd p s hf => exec_round_run cmd p hf,
    fun cmd p s rest hf hdef hhost => ⟨_, checkedStep_uninit hf hdef hhost⟩, by decide,
    fun p s hf hctr hregs hk hw => ⟨_, exec_round_run _ p hf, ?_, ?_⟩⟩
  · exact congrArg ctrAfterRound hctr
  · rw [Hardware.applyRound_regs, hregs, hk, hw]
    decide

/-- Settles O35, by induction on the number of rounds. -/
theorem allZeroIsAFixedPoint : Obligations.AllZeroIsAFixedPoint :=
  ⟨roundFn_zero, rounds_zero⟩

/-- Settles O40, by `rst` and then the control state, in the order of the rule; a drive that completes and is no edge
is one of the MIX or the ROM port. -/
theorem edgeStepIsOneOperation : Obligations.EdgeStepIsOneOperation := by
  refine ⟨fun s rst cmd p rest hhost => ?_, fun s t d rest hhost hd hstep => ?_⟩
  · rw [step_of_host s hhost]
    rcases rst_cases rst with rfl | rfl
    · rw [if_neg (by decide)]
      have hready (hf : s.fsm = .idle ∨ s.fsm = .done) :=
        (runDrive_edge_commandInstr (s := { s with host := rest }) cmd p hf).trans (exec_commandInstr cmd p _)
      cases hf : s.fsm with
      | run => exact (exec_round_eq_runDrive cmd p _).symm
      | unreachable => exact runDrive_edge_unreachable _ cmd p hf
      | idle => exact hready (.inl hf)
      | done => exact hready (.inr hf)
    · exact runDrive_edge_reset _ cmd p
  · rw [step_of_host s hhost] at hstep
    rcases runDrive_next_cases hstep with ⟨_, _, _, _, _, _, -, rfl⟩ | ⟨_, _, -, -, rfl⟩ | ⟨cmd, p, hedge, -⟩ |
      ⟨cmd, p, hedge, -, -⟩ | ⟨cmd, p, hedge, -, -⟩
    · exact ⟨rfl, rfl, rfl, rfl⟩
    · exact ⟨rfl, rfl, rfl, rfl⟩
    all_goals exact absurd hedge (hd _ cmd p)

/-- Settles O41, row by row: outside RUN the rows are the commands', in RUN the round's. -/
theorem fsmTransitionTable : Obligations.FsmTransitionTable := by
  intro s p
  refine ⟨fun h => ?_, fun cmd hf hctr => ?_, fun cmd hf hctr => ?_, fun cmd => ?_⟩
  · have hedge := fun cmd => runDrive_edge_commandInstr cmd p h
    refine ⟨⟨s, (hedge cmdNop).trans (exec_nop_ready p h), rfl, rfl, rfl, fun hinv => ?_⟩,
      ⟨_, (hedge cmdLoad).trans (exec_load_ready p h), rfl, rfl, rfl⟩,
      ⟨_, (hedge cmdStart).trans (exec_start_ready p h), rfl, rfl, rfl⟩,
      ⟨_, (hedge cmdLoadstart).trans (exec_loadstart_ready p h), rfl, rfl, rfl⟩⟩
    exact hinv.roundIdx_of_not_busy (Hardware.busy_of_ready h)
  · have hne : s.ctr ≠ 63#6 := by bv_omega
    exact ⟨_, runDrive_edge_run s cmd p hf, fsmAfterRound_of_ne hne, toNat_ctrAfterRound hne, rfl⟩
  · have hlast : s.ctr = 63#6 := BitVec.eq_of_toNat_eq hctr
    exact ⟨_, runDrive_edge_run s cmd p hf, by simp [hlast], by simp [hlast], rfl⟩
  · exact ⟨_, runDrive_edge_reset s cmd p, rfl, rfl, rfl, rfl⟩

/-- Settles O45: the invariant has it, and every step keeps the invariant (O43). -/
theorem roundIdxIsZeroWhenNotBusy : Obligations.RoundIdxIsZeroWhenNotBusy := by
  intro s hinv
  refine ⟨hinv.roundIdx_of_not_busy, fun t hstep => ?_⟩
  have hinv' : StateInv t := everyStepKeepsTheInvariant s t hinv hstep
  exact hinv'.roundIdx_of_not_busy

/-- Settles O53: the control after a reset is fixed, and a round and a command give it from the control alone. -/
theorem controlIgnoresData : Obligations.ControlIgnoresData := by
  intro rst cmd p p' s s' t hsame h
  have ⟨hfsm, _, _⟩ := hsame
  rcases runDrive_next_cases h with ⟨_, _, _, _, _, _, hd, -⟩ | ⟨_, _, hd, -, -⟩ | ⟨_, _, hd, rfl⟩ |
    ⟨_, _, hd, hf, rfl⟩ | ⟨_, _, hd, hf, rfl⟩ <;> cases hd
  · exact ⟨_, runDrive_edge_reset s' cmd p', rfl, rfl, rfl⟩
  · exact ⟨_, runDrive_edge_run s' cmd p' (hfsm ▸ hf), hsame.applyRound cmd p p'⟩
  · exact ⟨_, runDrive_edge_ready s' cmd p' (hfsm ▸ hf), hsame.command cmd p p'⟩

/-- Settles O58: the run of the closed machine is `runDrives` of the edges, which wait in its list. -/
theorem edgesApplyRoundsInOrder : Obligations.EdgesApplyRoundsInOrder := by
  intro s es rest hf hctr hlen hhost
  have hs : s = s.withHost (es.map (fun e => .edge 0#1 e.1 e.2) ++ rest) := by rw [← hhost]; rfl
  have hrun := run_withHost_append (es.map fun e => .edge 0#1 e.1 e.2) rest s
  rw [← hs, List.length_map, runDrives_edges es hf (by simpa [hctr] using hlen),
    Hardware.afterEdges_of_ctr_zero hctr] at hrun
  exact hrun

/-- Settles O25, from the key of NOP and what NOP does outside RUN. -/
theorem nopHolds : Obligations.NopHolds :=
  ⟨fun p _ h => decodeKey_command h cmdNop p, fun p _ h => exec_nop_ready p h⟩

/-- Settles O30: ROUND is the edge with its command, which outside RUN is the command's operation. -/
theorem roundOutsideRunIsTheCommand : Obligations.RoundOutsideRunIsTheCommand := by
  intro p s h
  have hround := fun cmd => exec_round_ready cmd p h
  exact ⟨hround cmdNop, hround cmdLoad, hround cmdStart, hround cmdLoadstart⟩

/-- Settles O34: every line of the listing writes a register that no later line reads, so both forms unfold to the
round function. -/
theorem roundFunctionIsTheListing : Obligations.RoundFunctionIsTheListing :=
  fun _ _ _ => ⟨rfl, rfl⟩

end Sys2Proof.Proofs
end

-- Proofs of the statements about what stops and what does not (60_exceptions.md).
section
/-!
SUPPORT. Everything a drive and a step can answer (60_exceptions.md R140, R142), a command in DONE (R143), a checked
run by its first step (R142), and a copy's step in a system of copies (R149).
-/

namespace Sys2Proof.Machine

/-! A drive completes or is refused by one of two names. -/

/-- Without the ROM a drive of its port is refused by name (41_tables.md R107). -/
theorem runDrive_tbl_absent {s : State} (sel : BitVec 2) (idx : BitVec 12) (h : s.cfg.hasTables = false) :
    runDrive (.tbl sel idx) s = .refused .noTables :=
  (runDrive_tbl s sel idx).trans (exec_decodeTbl_absent h sel idx)

/-- Everything a drive can answer. -/
theorem runDrive_outcomes (d : Drive) (s : State) :
    (∃ t, runDrive d s = .next t) ∨
    (s.fsm = .unreachable ∧ runDrive d s = .refused .unreachableFsm) ∨
    (s.cfg.hasTables = false ∧ runDrive d s = .refused .noTables) := by
  cases d with
  | mix op x y z => exact .inl ⟨_, runDrive_mix_mfu s op x y z⟩
  | tbl sel idx =>
    cases hrom : s.cfg.hasTables with
    | true => exact .inl ⟨_, runDrive_tbl_present sel idx hrom⟩
    | false => exact .inr (.inr ⟨rfl, runDrive_tbl_absent sel idx hrom⟩)
  | edge rst cmd p =>
    rcases rst_cases rst with rfl | rfl
    · cases hf : s.fsm with
      | idle => exact .inl ⟨_, runDrive_edge_ready s cmd p (.inl hf)⟩
      | done => exact .inl ⟨_, runDrive_edge_ready s cmd p (.inr hf)⟩
      | run => exact .inl ⟨_, runDrive_edge_run s cmd p hf⟩
      | unreachable => exact .inr (.inl ⟨rfl, runDrive_edge_unreachable s cmd p hf⟩)
    · exact .inl ⟨_, runDrive_edge_reset s cmd p⟩

/-- Everything a step can answer: taking the next drive leaves `fsm` and the parameter. -/
theorem step_outcomes (s : State) :
    (∃ t, step s = .next t) ∨
    (s.fsm = .unreachable ∧ step s = .refused .unreachableFsm) ∨
    (s.cfg.hasTables = false ∧ step s = .refused .noTables) := by
  obtain ⟨-, -, -, hfsm, -, -, -, hcfg, -⟩ := s.nextDrive_frame
  rw [← hfsm, ← hcfg]
  exact runDrive_outcomes s.nextDrive.1 s.nextDrive.2

/-! The end of a compression is shown until a command or a reset (60_exceptions.md R143). -/

theorem Hardware.done_iff (m : Hardware) : m.done = true ↔ m.fsm = .done := by
  simp [Hardware.done]

/-- Of the commands only NOP stays in DONE. -/
theorem Hardware.command_fsm_done_iff {m : Hardware} (h : m.fsm = .done) (cmd : BitVec 2) (p : EdgePorts) :
    (m.command cmd p).fsm = .done ↔ cmd = cmdNop := by
  rcases m.command_cases cmd p with ⟨rfl, hc⟩ | ⟨rfl, hc⟩ | ⟨rfl, hc⟩ | ⟨rfl, hc⟩ <;> rw [hc]
  · simp [h]
  · simp [cmdNop, cmdLoad]
  · simp [cmdNop, cmdStart]
  · simp [cmdNop, cmdLoadstart]

/-! A checked step and a checked run by its first step (60_exceptions.md R142). -/

section
variable {s : State}

/-- A checked step that is no round on registers without a value is the step. -/
theorem checkedStep_of_not_uninit (h : ¬ (s.isRound s.nextDrive.1 = true ∧ s.regsDefined = false)) :
    checkedStep s = step s :=
  if_neg (by simpa using h)

/-- A read of the ROM port is no round. -/
theorem checkedStep_tbl_absent {sel : BitVec 2} {idx : BitVec 12} {rest : List Drive}
    (hrom : s.cfg.hasTables = false) (h : s.host = .tbl sel idx :: rest) : checkedStep s = .refused .noTables := by
  have hround : s.isRound s.nextDrive.1 = false := by rw [s.nextDrive_cons _ rest h]; rfl
  rw [checkedStep_of_not_uninit (by simp [hround]), step_of_host s h]
  exact runDrive_tbl_absent sel idx hrom

theorem checkedStep_unreachable {cmd : BitVec 2} {p : EdgePorts} {rest : List Drive} (hf : s.fsm = .unreachable)
    (h : s.host = .edge 0#1 cmd p :: rest) : checkedStep s = .refused .unreachableFsm := by
  rw [checkedStep_not_run (by simp [hf]), step_of_host s h]
  exact runDrive_edge_unreachable _ cmd p hf

/-- A checked run that ends in a state made a first step and went on from there. -/
theorem checkedRun_succ_next_iff {k : Nat} {t : State} :
    checkedRun (k + 1) s = .next t ↔ ∃ s', checkedStep s = .next s' ∧ checkedRun k s' = .next t := by
  cases hs : checkedStep s <;> simp [checkedRun, hs]

/-- A checked run that ends in a fault faulted at its first step, or went on from there to the fault. -/
theorem checkedRun_succ_fault_iff {k : Nat} {f : Fault} :
    checkedRun (k + 1) s = .fault f ↔
      checkedStep s = .fault f ∨ ∃ s', checkedStep s = .next s' ∧ checkedRun k s' = .fault f := by
  cases hs : checkedStep s <;> simp [checkedRun, hs]

end

/-- A fault stays, however many steps are asked for. -/
theorem checkedRun_add_of_fault {k : Nat} (n : Nat) {s : State} {f : Fault} (h : checkedRun k s = .fault f) :
    checkedRun (k + n) s = .fault f := by
  induction k generalizing s with
  | zero => cases h
  | succ k ih =>
    rw [Nat.succ_add, checkedRun_succ_fault_iff]
    rcases checkedRun_succ_fault_iff.mp h with hfault | ⟨s', hs', hrest⟩
    · exact .inl hfault
    · exact .inr ⟨s', hs', ih hrest⟩

/-- A checked run that ends in a state is the plain run: each of its steps is the plain step. -/
theorem run_of_checkedRun {k : Nat} {s t : State} (h : checkedRun k s = .next t) : run k s = .next t := by
  induction k generalizing s with
  | zero => exact h
  | succ k ih =>
    obtain ⟨s', hs', hrest⟩ := checkedRun_succ_next_iff.mp h
    rw [run_succ k (step_of_checkedStep hs')]
    exact ih hrest

/-! Copies of the core (60_exceptions.md R149). -/

/-- A drive to copy `j` that completes puts that copy's next state in its place. -/
theorem System.stepAt_next {n : Nat} {sys sys' : System n} {j : Fin n} (h : sys.stepAt j = .next sys') :
    ∃ t, step (sys.get j) = .next t ∧ sys' = sys.set j t := by
  unfold System.stepAt at h
  split at h
  case h_1 t ht =>
    cases h
    exact ⟨t, ht, rfl⟩
  all_goals cases h

theorem System.get_set_self {n : Nat} (sys : System n) (j : Fin n) (t : State) : (sys.set j t).get j = t := by
  simp [Vector.get_eq_getElem]

theorem System.get_set_ne {n : Nat} (sys : System n) {i j : Fin n} (t : State) (h : i ≠ j) :
    (sys.set j t).get i = sys.get i := by
  rw [Vector.get_eq_getElem, Vector.get_eq_getElem]
  exact Vector.getElem_set_ne j.isLt i.isLt fun hval => h (Fin.ext hval.symm)

end Sys2Proof.Machine
end

section
/-!
The statements of 60_exceptions.md, each settled from the lemmas above.
-/

namespace Sys2Proof.Proofs

open Sys2Proof.Machine Sys2Proof.Safety

/-- Settles O42, by what a step can answer; the invariant and the ROM exclude the two refusals. -/
theorem stepIsTotal : Obligations.StepIsTotal := by
  refine ⟨fun s f h => ?_, fun s r h => ?_, fun s hinv hrom => ?_⟩
  · rcases step_outcomes s with ⟨t, hnext⟩ | ⟨-, hrefused⟩ | ⟨-, hrefused⟩
    · cases hnext.symm.trans h
    · cases hrefused.symm.trans h
    · cases hrefused.symm.trans h
  · rcases step_outcomes s with ⟨t, hnext⟩ | ⟨hfsm, hrefused⟩ | ⟨hrom, hrefused⟩
    · cases hnext.symm.trans h
    · cases hrefused.symm.trans h
      exact .inl ⟨rfl, hfsm⟩
    · cases hrefused.symm.trans h
      exact .inr ⟨rfl, hrom⟩
  · obtain ⟨hreachable, -, -, -⟩ := hinv
    rcases step_outcomes s with hnext | ⟨hfsm, -⟩ | ⟨habsent, -⟩
    · exact hnext
    · exact absurd hfsm hreachable
    · cases hrom.symm.trans habsent

/-- Settles O48, by the cases of a drive: the ports leave `fsm`, and no round is made in DONE. -/
theorem doneStaysUntilCommandOrReset : Obligations.DoneStaysUntilCommandOrReset := by
  intro d s t hdone h
  rw [Hardware.done_iff] at hdone ⊢
  rcases runDrive_next_cases h with ⟨op, x, y, z, r, err, rfl, rfl⟩ | ⟨sel, idx, rfl, -, rfl⟩ | ⟨cmd, p, rfl, rfl⟩ |
    ⟨cmd, p, rfl, hf, rfl⟩ | ⟨cmd, p, rfl, -, rfl⟩
  · simp [isCommand, isReset, hdone]
  · simp [isCommand, isReset, hdone]
  · simp [isReset]
  · cases hdone.symm.trans hf
  · simp [isCommand, isReset, Hardware.command_fsm_done_iff hdone]

/-- Settles O54: a drive to a copy sets that copy's place alone. -/
theorem instancesShareNothing : Obligations.InstancesShareNothing := by
  intro n sys sys' j h
  obtain ⟨t, ht, rfl⟩ := System.stepAt_next h
  exact ⟨by rw [ht, System.get_set_self], fun i hi => System.get_set_ne sys t hi⟩

/-- Settles O55, row by row of the table; that a fault stays is an induction on the steps before it. -/
theorem modelFaultsWhereTheTablePutsThem : Obligations.ModelFaultsWhereTheTablePutsThem := by
  refine ⟨fun s cmd p rest hhost hf hdef => ⟨.a, checkedStep_uninit hf hdef hhost⟩,
    fun s h => checkedStep_of_not_uninit h, fun s hdef => ?_,
    fun s cmd p rest hhost hf => checkedStep_unreachable hf hhost, fun k s hpost => ?_,
    fun s sel idx rest hhost hrom => checkedStep_tbl_absent hrom hhost, fun k n s f h => checkedRun_add_of_fault n h⟩
  · simp [observeStateOut, hdef]
  · simp [runFrom, hpost]

/-- Settles O56, by induction on the steps, each of which is the plain step. -/
theorem checkedRunRefinesTheRun : Obligations.CheckedRunRefinesTheRun :=
  fun _ _ _ h => run_of_checkedRun h

end Sys2Proof.Proofs
end

-- Proofs of the statements about reset and what a host must respect (70_reset_and_hazards.md).
section
/-!
SUPPORT. A command in RUN is the round that its edge applies (70_reset_and_hazards.md R164), and a round reads `k_in`
and `w_in` alone of the data inputs (R165).
-/

namespace Sys2Proof.Machine

theorem Hardware.busy_iff (m : Hardware) : m.busy = true ↔ m.fsm = .run := by
  simp [Hardware.busy]

/-- The operation of a command and ROUND with that command are one edge, in every control state (42_round.md R112). -/
theorem exec_commandInstr_eq_round (cmd : BitVec 2) (p : EdgePorts) (s : State) :
    exec (commandInstr cmd p) s = exec (.round cmd p) s := by
  rcases cmd_cases cmd with rfl | rfl | rfl | rfl <;> rfl

/-- A round with a command is the round with NOP, but for `err`. -/
theorem Hardware.applyRound_of_ne_nop (m : Hardware) {cmd : BitVec 2} (p : EdgePorts) (h : cmd ≠ cmdNop) :
    m.applyRound cmd p = { m.applyRound cmdNop p with err := true } := by
  have herr : errAfterRound m.err cmd = true := if_neg h
  simp [Hardware.applyRound, herr]

theorem Hardware.applyRound_congr (m : Hardware) (cmd : BitVec 2) {p q : EdgePorts} (hk : p.k = q.k) (hw : p.w = q.w) :
    m.applyRound cmd p = m.applyRound cmd q := by
  simp [Hardware.applyRound, hk, hw]

section
variable {s : State} (h : s.fsm = .run)
include h

/-- In RUN the command is ignored and sets `err`. -/
theorem exec_round_run_of_ne_nop {cmd : BitVec 2} (p : EdgePorts) (hcmd : cmd ≠ cmdNop) :
    exec (.round cmd p) s = .next { s with toHardware := { s.applyRound cmdNop p with err := true } } := by
  rw [exec_round_run cmd p h, Hardware.applyRound_of_ne_nop _ p hcmd]

theorem exec_round_run_congr (cmd : BitVec 2) {p q : EdgePorts} (hk : p.k = q.k) (hw : p.w = q.w) :
    exec (.round cmd p) s = exec (.round cmd q) s := by
  rw [exec_round_run cmd p h, exec_round_run cmd q h, Hardware.applyRound_congr _ cmd hk hw]

end

end Sys2Proof.Machine

namespace Sys2Proof.Safety

open Sys2Proof.Machine

theorem keepsCommandRule_iff {s : State} {d : Drive} :
    keepsCommandRule s d = true ↔ (s.busy && isCommand d) = false := by
  rw [keepsCommandRule, Bool.and_comm, Bool.not_eq_true']

end Sys2Proof.Safety
end

section
/-!
The statements of 70_reset_and_hazards.md, each settled from the lemmas above.
-/

namespace Sys2Proof.Proofs

open Sys2Proof.Machine Sys2Proof.Safety

/-- Settles O47: in RUN each command's operation is ROUND with that command, which is NOP's round but for `err`; what
a drive does to `err` is `runDrive_err`. -/
theorem commandWhileBusyOnlySetsErr : Obligations.CommandWhileBusyOnlySetsErr := by
  refine ⟨fun p s hbusy => ?_, fun d s t herr hreset h => ?_, fun d s t hkeeps herr h => ?_⟩
  · have hf : s.fsm = .run := s.busy_iff.mp hbusy
    have hround := fun cmd (hcmd : cmd ≠ cmdNop) => exec_round_run_of_ne_nop hf p hcmd
    have hcommand := fun cmd => exec_commandInstr_eq_round cmd p s
    exact ⟨_, (hcommand cmdNop).trans (exec_round_run cmdNop p hf), rfl,
      (hcommand cmdLoad).trans (hround cmdLoad (by decide)),
      (hcommand cmdStart).trans (hround cmdStart (by decide)),
      (hcommand cmdLoadstart).trans (hround cmdLoadstart (by decide)), hround⟩
  · simp [runDrive_err h, herr, hreset]
  · simp [runDrive_err h, herr, keepsCommandRule_iff.mp hkeeps]

/-- Settles O51: a reset and, outside RUN, NOP and START name no input in what they answer, LOAD and LOADSTART name
`cv_in` alone, and in RUN every command's operation is a round. -/
theorem unsampledInputsDoNotMatter : Obligations.UnsampledInputsDoNotMatter := by
  intro p q s
  refine ⟨rfl, fun hf => ⟨?_, ?_, fun hcv => ⟨?_, ?_⟩⟩, fun hf hk hw => ?_⟩
  · rw [exec_nop_ready p hf, exec_nop_ready q hf]
  · rw [exec_start_ready p hf, exec_start_ready q hf]
  · rw [exec_load_ready p hf, exec_load_ready q hf, hcv]
  · rw [exec_loadstart_ready p hf, exec_loadstart_ready q hf, hcv]
  · have hround := fun cmd => exec_round_run_congr hf cmd hk hw
    have hcommand : ∀ cmd, exec (commandInstr cmd p) s = exec (commandInstr cmd q) s := by
      simpa only [exec_commandInstr_eq_round] using hround
    exact ⟨hcommand cmdNop, hcommand cmdLoad, hcommand cmdStart, hcommand cmdLoadstart, hround⟩

/-- Settles O32, from the key of RESET and the edge it makes; a..h become free words. -/
theorem resetFollowsItsRule : Obligations.ResetFollowsItsRule :=
  ⟨fun p fsm cmd => decodeKey_reset fsm cmd p, fun p s => ⟨freeRegs s.stream s.draws, s.draws + 8, exec_reset p s⟩,
    fun p s => ⟨s.resetEdge, exec_reset p s, rfl, rfl, rfl, rfl⟩⟩

/-- Settles O33: every field but a..h and the count of draws is a constant of the reset edge or left by it. -/
theorem oneResetEdgeIsEnough : Obligations.OneResetEdgeIsEnough :=
  fun p q s => ⟨s.resetEdge, s.resetEdge.resetEdge, exec_reset p s, exec_reset q s.resetEdge, rfl, rfl, rfl⟩

end Sys2Proof.Proofs
end
